-- ==== Sys2Proof/Word.lean ====
section
/-!
DEFINITION. The word types of the block (spec/00_scope.md R9, R10; 30_encoding.md R99): the 32-bit host word, the
4-bit word index of the register window, and the 64-bit binary64 pattern.
-/

namespace Sys2Proof

/-- A 32-bit host word: a register's value, a command word (00_scope.md R9, "host data width"). -/
abbrev Word := BitVec 32

/-- A word index w in 0..15 of the register window (20_memory.md R61). -/
abbrev Index := BitVec 4

/-- A binary64 bit pattern, the spec's type F64 (00_scope.md R11, 30_encoding.md R99). -/
abbrev F64 := BitVec 64

end Sys2Proof
end

