-- ==== Sys2Proof/Config.lean ====
section
/-!
DEFINITION. What a build or an implementation of the block fixes (spec/00_scope.md R7, R9): the constants, and the
free values, which have no body so that no proof can learn them.
-/

namespace Sys2Proof

/-- The iteration bound ITER_MAX = 50, fixed in every build (00_scope.md R7). -/
def Config.iterMax : Nat := 50

/-- The escape threshold, the pattern of 4.0 (00_scope.md R7). -/
def Config.threshold : F64 := 0x4010000000000000#64

/-- The identification constant (10_state.md R37). -/
def Config.idWord : Word := 0x4D420007#32

/-- SIZE of the product build (00_scope.md R8); other builds differ in `State.size` only (log 1). -/
def Config.productSize : BitVec 16 := 500#16

/-- Free value: the pattern an implementation offers for its n-th NaN result; its sign and payload are a `draw()`
(40_fp_datapath.md R131; log 5). -/
opaque Config.nanDraw : Nat → F64

/-- Free value: what an implementation returns in the drawn fields of its n-th read while busy
(44_host_access.md R247; log 6). -/
opaque Config.busyDraw : Nat → Word

/-- The base byte address of the register window, left to the platform (20_memory.md R63; log 13). -/
opaque Config.hifBase : Nat

end Sys2Proof
end

