-- ==== Sys2Proof/Syntax.lean ====
section
/-!
DEFINITION. The commands of the block: one constructor per row of spec/opcode_table.json (30_encoding.md R92).
-/

namespace Sys2Proof

/-- A legal command word, decoded (30_encoding.md R92, R94). -/
inductive Instr where
  /-- NOP: do nothing (43_sequencer.md R216). -/
  | nop
  /-- RUN: compute the checksum of the whole grid (43_sequencer.md R217). -/
  | run
  /-- TEST: escape-test the point (CR, CI) (41_escape_test.md R158). -/
  | test
  /-- PACK b, l: push the escape bit PBIT with the end-of-row flag PLAST (42_bit_packer.md R192). -/
  | pack (pbit plast : Bool)
  /-- CLEAR: reset the packer and the checksum (42_bit_packer.md R193). -/
  | clear
  deriving DecidableEq, Repr

end Sys2Proof
end

