-- ==== Sys2Proof/Machine/State.lean ====
section
/-!
DEFINITION. The state of the block, whole (spec/10_state.md R25, R30-R42; 44_host_access.md R249), the events that
change it (R240), the state after reset (R47), and the reasons a step can stop.
-/

namespace Sys2Proof.Machine

/-- The engine phase (10_state.md R42). -/
inductive Phase where
  /-- No work. -/
  | idle
  /-- A TEST is iterating. -/
  | tIter
  /-- A RUN is about to start the point (x, y). -/
  | rStart
  /-- A RUN is iterating on the point (x, y). -/
  | rIter
  /-- A RUN has the point's escape flag and must pack it. -/
  | rEnd
  deriving DecidableEq, Repr

/-- The cause of the last rejection, STATUS.ECAUSE; the code 11 is never returned (10_state.md R25). -/
inductive Cause where
  | none
  | illegalWord
  | whileBusy
  deriving DecidableEq, Repr

/-- One host access (20_memory.md R75): the whole 32-bit word at a word index, read or written. A misaligned,
narrower or wider access cannot be written down (R66; log 13). -/
inductive Access where
  /-- MemRead(w, 4). -/
  | read (w : Index)
  /-- MemWrite(w, 4, v). -/
  | write (w : Index) (v : Word)
  deriving DecidableEq, Repr

/-- One atomic event (44_host_access.md R240). -/
inductive Event where
  /-- A host access: Read w or Write w v. -/
  | access (a : Access)
  /-- The engine's turn: one engine step, if the engine has work. -/
  | engine
  /-- Reset. -/
  | reset
  deriving DecidableEq, Repr

/-- The state of the bit-packer (10_state.md R40). -/
structure Bpk where
  /-- The checksum accumulator, register SUM (R30). -/
  sum : BitVec 8
  /-- PACKST.BYTE_ACC (R31). -/
  byteAcc : BitVec 8
  /-- PACKST.BIT_NUM (R31). -/
  bitNum : BitVec 3
  deriving DecidableEq, Repr

/-- The state of the escape-test unit, which the host cannot read (10_state.md R39, R43). -/
structure Etu where
  zr : F64
  zi : F64
  zrzr : F64
  zizi : F64
  /-- cr_q, the latched real part. -/
  crq : F64
  /-- ci_q, the latched imaginary part. -/
  ciq : F64
  /-- The 50-iteration counter. -/
  it : BitVec 6
  /-- The internal escape flag of the current point (R43; log 8). -/
  escape : Bool
  deriving DecidableEq, Repr

/-- Everything the spec gives the machine, and three fields of the model: `events`, `responses` and `draws`. -/
structure State where
  /-- CFG.SIZE, fixed for a build and changed by nothing (10_state.md R36; log 1). -/
  size : BitVec 16
  /-- The engine phase; STATUS.BUSY and MODE are computed from it (10_state.md R26, R42, R45). -/
  phase : Phase
  /-- STATUS.DONE (R27). -/
  done : Bool
  /-- STATUS.ERR (R28). -/
  err : Bool
  /-- STATUS.NF (R29). -/
  nf : Bool
  /-- STATUS.ECAUSE (R25). -/
  ecause : Cause
  /-- sum, byte_acc and bit_num. -/
  bpk : Bpk
  /-- CR = CR_HI ++ CR_LO (R32). -/
  cr : F64
  /-- CI = CI_HI ++ CI_LO (R33). -/
  ci : F64
  /-- ERES.ESC (R34). -/
  esc : Bool
  /-- ERES.COUNT (R34). -/
  count : BitVec 6
  /-- POS.X, the column in work (R35, R41). -/
  x : BitVec 16
  /-- POS.Y, the row in work (R35, R41). -/
  y : BitVec 16
  /-- The ETU registers (R39). -/
  etu : Etu
  /-- The model's: the events still to come, oldest first (44_host_access.md R240; log 2). -/
  events : List Event
  /-- The model's: the read data given to the host, oldest first (20_memory.md R80; log 4). -/
  responses : List Word
  /-- The model's: the index of the next draw (log 7). -/
  draws : Nat
  deriving DecidableEq, Repr

/-- The block raises no exception and takes no trap, and no address can fault (60_exceptions.md R260): a step never
ends in a fault, and there is no reason to name. -/
inductive Fault where
  deriving DecidableEq, Repr

/-- Why a step has no transition. -/
inductive Refusal where
  /-- Raised by exec for a command with no meaning in this model; no arm of exec raises it. Safe: nothing is claimed
  of such a command. -/
  | notModelled (mnemonic : String)
  /-- Raised by the R_START engine step when the position lies outside the grid, so that i2f or fdiv would meet
  operands outside the sequencer's domain, which the spec lets a model refuse (40_fp_datapath.md R129;
  93_implementation_defined.md I12; log 9). Safe: no reachable state raises it. -/
  | coordinateDomain
  /-- Raised by the R_START engine step when SIZE = 0: there is no such build (93_implementation_defined.md I13;
  log 10). Safe: no build has this state. -/
  | noSuchBuild
  deriving DecidableEq, Repr

/-- The packer after reset or BPK_CLEAR (10_state.md R47, 42_bit_packer.md R194). -/
def Bpk.zero : Bpk := ⟨0, 0, 0⟩

/-- The ETU after reset: +0.0 everywhere, it = 0 (10_state.md R47); escape 0 is the model's choice (log 8). -/
def Etu.zero : Etu := ⟨0, 0, 0, 0, 0, 0, 0, false⟩

/-- The block right after reset, in the product build (10_state.md R47, 70_reset_and_hazards.md R291), with no event
waiting, no response given and no draw taken (log 2, 4, 7). -/
def State.reset : State where
  size := Config.productSize
  phase := .idle
  done := false
  err := false
  nf := false
  ecause := .none
  bpk := Bpk.zero
  cr := 0
  ci := 0
  esc := false
  count := 0
  x := 0
  y := 0
  etu := Etu.zero
  events := []
  responses := []
  draws := 0

end Sys2Proof.Machine
end

