-- ==== Sys2Proof/Machine/Flags.lean ====
section
/-!
DEFINITION. The flags of STATUS and every way they change outside the engine's own finish (spec/10_state.md R25-R29,
R45; 44_host_access.md R243, R244; 60_exceptions.md R261, R264).
-/

namespace Sys2Proof.Machine

/-- STATUS.BUSY is 1 exactly while the phase is not IDLE (10_state.md R26). -/
def State.busy (s : State) : Bool := s.phase != .idle

/-- STATUS.MODE from the phase (10_state.md R45). -/
def modeBits : Phase → BitVec 2
  | .idle => 0b00#2
  | .tIter => 0b01#2
  | .rStart => 0b10#2
  | .rIter => 0b10#2
  | .rEnd => 0b10#2

/-- STATUS.ECAUSE as bits (10_state.md R25). -/
def causeBits : Cause → BitVec 2
  | .none => 0b00#2
  | .illegalWord => 0b01#2
  | .whileBusy => 0b10#2

/-- The STATUS word: `zext_32(ECAUSE ++ MODE ++ NF ++ ERR ++ DONE ++ BUSY)` (30_encoding.md R101). -/
def State.statusWord (s : State) : Word :=
  (causeBits s.ecause ++ modeBits s.phase ++ BitVec.ofBool s.nf ++ BitVec.ofBool s.err ++ BitVec.ofBool s.done
    ++ BitVec.ofBool s.busy).setWidth 32

/-- The output port done_o, equal to STATUS.DONE at every moment (60_exceptions.md R264). -/
def State.doneO (s : State) : Bool := s.done

/-- Record a rejection: ERR set, ECAUSE the cause of this rejection, and nothing else (44_host_access.md R243;
60_exceptions.md R261, R263). This is the block's one way to report an error; it takes no trap. -/
def State.reject (c : Cause) (s : State) : State := { s with err := true, ecause := c }

/-- A write of v to STATUS: write 1 to clear DONE, ERR (with ECAUSE) and NF (44_host_access.md R244). -/
def State.writeStatus (v : Word) (s : State) : State :=
  { s with
    done := s.done && !v.getLsbD 1
    err := s.err && !v.getLsbD 2
    ecause := if v.getLsbD 2 then .none else s.ecause
    nf := s.nf && !v.getLsbD 3 }

end Sys2Proof.Machine
end

