-- ==== Sys2Proof/Machine/Fp.lean ====
section
/-!
DEFINITION. The floating-point datapath (spec/40_fp_datapath.md), exact on every pattern.

Every finite binary64 value is an integer times 2^-1074, the least subnormal. Magnitudes are therefore kept as natural
numbers in that unit, and an exact result is a fraction of naturals in that unit; nothing is rounded before `round`
(log 18).
-/

namespace Sys2Proof.Machine

/-! ## Fields and classes (30_encoding.md R99, 40_fp_datapath.md R122) -/

/-- `sign(p)` is bit 63. -/
def signOf (p : F64) : Bool := p.getLsbD 63

/-- The biased exponent field E, bits 62:52. -/
def expOf (p : F64) : Nat := (p.extractLsb' 52 11).toNat

/-- The trailing significand field T, bits 51:0. -/
def fracOf (p : F64) : Nat := (p.extractLsb' 0 52).toNat

/-- E is all ones and T is not zero. -/
def isNaN (p : F64) : Bool := expOf p == 0x7FF && fracOf p != 0

/-- E is all ones and T is zero. -/
def isInf (p : F64) : Bool := expOf p == 0x7FF && fracOf p == 0

/-- A zero of either sign. -/
def isZero (p : F64) : Bool := expOf p == 0 && fracOf p == 0

/-- Neither an infinity nor a NaN (R130). -/
def isfinite (p : F64) : Bool := expOf p != 0x7FF

/-- `neg(p)` is p with bit 63 flipped (R122). -/
def neg (p : F64) : F64 := p ^^^ 0x8000000000000000#64

/-- 1.0 in units of 2^-1074. -/
@[irreducible] def oneUnits : Nat := 2 ^ 1074

/-- 2^1024 in units of 2^-1074: the magnitude at which R123 returns an infinity. -/
@[irreducible] def overflowUnits : Nat := 2 ^ 2098

/-- |V(p)| in units of 2^-1074, by the value rule of 30_encoding.md R99. On an infinity it gives 2^1024, above every
finite value, which is what the comparator needs of it (R127). -/
def mag (p : F64) : Nat :=
  if expOf p = 0 then fracOf p else (2 ^ 52 + fracOf p) * 2 ^ (expOf p - 1)

/-- V(p) in units of 2^-1074. -/
def val (p : F64) : Int := if signOf p then -(mag p : Int) else (mag p : Int)

/-- The pattern with sign S, exponent field E and significand field T (R99). -/
def assemble (negative : Bool) (e t : Nat) : F64 :=
  BitVec.ofBool negative ++ BitVec.ofNat 11 e ++ BitVec.ofNat 52 t

/-- The zero with a sign. -/
def zeroOf (negative : Bool) : F64 := assemble negative 0 0

/-- The infinity with a sign. -/
def infOf (negative : Bool) : F64 := assemble negative 0x7FF 0

/-- The F64 of magnitude `u` units, for a magnitude that binary64 holds (the end of R123): subnormal below 2^-1022,
else normal with E = floor(log2 M) + 1023 and T the significand below the leading bit. -/
def ofMag (negative : Bool) (u : Nat) : F64 :=
  if u < 2 ^ 52 then assemble negative 0 u
  else assemble negative (Nat.log2 u - 51) (u / 2 ^ (Nat.log2 u - 52) - 2 ^ 52)

/-! ## Rounding (R123) -/

/-- The spacing q of binary64 values in the binade of the exact magnitude n/d: 2^(e-52) with
e = max(floor(log2 m), -1022), here in units of 2^-1074, so the subnormal binade has spacing 1. -/
def spacing (n d : Nat) : Nat := 2 ^ (max (Nat.log2 (n / d)) 52 - 52)

/-- k = floor(m / q), or k + 1 when the fraction f is above 1/2, or is 1/2 with k odd (R123). -/
def roundQuotient (n d : Nat) : Nat :=
  let k := n / d
  if 2 * (n % d) > d ∨ (2 * (n % d) = d ∧ k % 2 = 1) then k + 1 else k

/-- The rounded magnitude M = k * q of the exact magnitude n/d, both in units of 2^-1074. -/
def roundMag (n d : Nat) : Nat := roundQuotient n (d * spacing n d) * spacing n d

/-- `round(r, s)` of R123 on the exact value r/d in units of 2^-1074 (d positive), with the sign s for an exact zero:
to nearest, ties to even, overflow to an infinity, no flush to zero. -/
def round (r : Int) (d : Nat) (s : Bool) : F64 :=
  if r = 0 then zeroOf s
  else if roundMag r.natAbs d ≥ overflowUnits then infOf (decide (r < 0))
  else ofMag (decide (r < 0)) (roundMag r.natAbs d)

/-! ## The units -/

/-- "some NaN": the implementation's n-th NaN. Every NaN pattern is possible; where the free value offers no NaN the
quiet NaN stands in (R131; log 5). -/
def someNaN (n : Nat) : F64 :=
  if isNaN (Config.nanDraw n) then Config.nanDraw n else 0x7FF8000000000000#64

/-- FADD (R124). `n` is the index of the draw for a NaN result. -/
def fadd (n : Nat) (a b : F64) : F64 :=
  if isNaN a || isNaN b then someNaN n
  else if isInf a && isInf b && signOf a != signOf b then someNaN n
  else if isInf a then a
  else if isInf b then b
  else if isZero a && isZero b && signOf a == signOf b then a
  else round (val a + val b) 1 false

/-- FSUB: `fsub(a, b) = fadd(a, neg(b))` (R125). -/
def fsub (n : Nat) (a b : F64) : F64 := fadd n a (neg b)

/-- FMUL (R126). -/
def fmul (n : Nat) (a b : F64) : F64 :=
  if isNaN a || isNaN b then someNaN n
  else if (isInf a && isZero b) || (isZero a && isInf b) then someNaN n
  else if isInf a || isInf b then infOf (signOf a != signOf b)
  else round (val a * val b) oneUnits (signOf a != signOf b)

/-- FGT, the magnitude comparator (R127): false on a NaN, else V(a) > V(b) in the extended reals. -/
def fgt (a b : F64) : Bool :=
  if isNaN a || isNaN b then false else decide (val a > val b)

/-- I2F: the exact F64 of an integer in 0..131070; no other operand reaches the converter, and the model refuses it
(R128; 93_implementation_defined.md I12; log 9). -/
def i2f (n : Nat) : Option F64 :=
  if n ≤ 131070 then some (ofMag false (n * oneUnits)) else none

/-- Whether a pattern is +0 or a positive integer (the operands R129 allows). -/
def isNatural (p : F64) : Bool := isfinite p && !signOf p && mag p % oneUnits == 0

/-- FDIV: round(V(a) / V(b), +) for a natural number a and a positive integer b; other operands never reach the
divider and the model refuses them (R129; I12; log 9). -/
def fdiv (a b : F64) : Option F64 :=
  if isNatural a && isNatural b && mag b != 0 then
    some (round (mag a * oneUnits : Nat) (mag b) false)
  else none

end Sys2Proof.Machine
end

