-- ==== Sys2Proof/Machine/Operands.lean ====
section
/-!
DEFINITION. The operand forms: the two halves of CR and CI (spec/20_memory.md R64, 30_encoding.md R100,
44_host_access.md R245), the fields of PACK (R94), and the coordinates of a grid point (43_sequencer.md R210, R211).
-/

namespace Sys2Proof.Machine

/-- Bits 31:0 of a 64-bit operand, the word with the lower index (R64). -/
def lowHalf (p : F64) : Word := p.extractLsb' 0 32

/-- Bits 63:32 of a 64-bit operand, the word with the higher index (R64). -/
def highHalf (p : F64) : Word := p.extractLsb' 32 32

/-- Replace bits 31:0 and keep the other half (R245). -/
def setLowHalf (p : F64) (v : Word) : F64 := (highHalf p ++ v : BitVec (32 + 32))

/-- Replace bits 63:32 and keep the other half (R245). -/
def setHighHalf (p : F64) (v : Word) : F64 := (v ++ lowHalf p : BitVec (32 + 32))

/-- The constant 1.0. -/
def one : F64 := 0x3FF0000000000000#64

/-- The constant 1.5. -/
def oneAndHalf : F64 := 0x3FF8000000000000#64

/-- The constant 2.0. -/
def two : F64 := 0x4000000000000000#64

/-- `fdiv(fmul(2.0, i2f(n)), i2f(SIZE))` for 0 <= n < SIZE <= 65535 (R210, R211), and none outside that range, where
no operands reach the divider (R129; log 9). The product is exact, so it takes no draw. -/
def gridQuotient (size n : Nat) : Option F64 :=
  if n < size ∧ size ≤ 65535 then
    match i2f n, i2f size with
    | some a, some b => fdiv (fmul 0 two a) b
    | _, _ => none
  else none

/-- coord_i(y), the imaginary part for row y (R210). -/
def coordI (size y : Nat) : Option F64 := (gridQuotient size y).map fun q => fsub 0 q one

/-- coord_r(x), the real part for column x (R211). -/
def coordR (size x : Nat) : Option F64 := (gridQuotient size x).map fun q => fsub 0 q oneAndHalf

end Sys2Proof.Machine
end

