-- ==== Sys2Proof/Machine/Ops.lean ====
section
/-!
DEFINITION. The shared operations over the units: POINT_START, ITER and the finish of a point
(spec/41_escape_test.md R150-R156), PACK_BIT and BPK_CLEAR (42_bit_packer.md R181, R194), the acceptance of a command
(44_host_access.md R243), and the reset event (70_reset_and_hazards.md R291).
-/

namespace Sys2Proof.Machine

/-! ## The escape-test unit -/

/-- POINT_START(c_r, c_i) (R150): everything +0.0, the counter and the escape flag 0, the point latched. -/
def Etu.pointStart (cr ci : F64) : Etu := ⟨0, 0, 0, 0, cr, ci, 0, false⟩

/-- The values one ITER computes (R152). -/
structure IterValues where
  t1 : F64
  zr : F64
  t2 : F64
  t3 : F64
  zi : F64
  zrzr : F64
  zizi : F64
  s : F64
  deriving DecidableEq, Repr

/-- The number of draw indices one ITER has for itself, one per operation that may give a NaN (log 5). -/
def drawsPerIter : Nat := 8

/-- The update of R152 in its exact order: zr from the previous squares, zi from the new zr and the old zi, then the
squares and their sum. Operation j of the iteration has draw n + j. -/
def iterValues (n : Nat) (u : Etu) : IterValues :=
  let t1 := fsub n u.zrzr u.zizi
  let zr := fadd (n + 1) t1 u.crq
  let t2 := fmul (n + 2) two zr
  let t3 := fmul (n + 3) t2 u.zi
  let zi := fadd (n + 4) t3 u.ciq
  let zrzr := fmul (n + 5) zr zr
  let zizi := fmul (n + 6) zi zi
  let s := fadd (n + 7) zrzr zizi
  ⟨t1, zr, t2, t3, zi, zrzr, zizi, s⟩

/-- ITER on the ETU registers: the update, the counter and the comparator's flag (R152, R153, R154). -/
def Etu.iter (n : Nat) (u : Etu) : Etu :=
  let v := iterValues n u
  { u with
    zr := v.zr
    zi := v.zi
    zrzr := v.zrzr
    zizi := v.zizi
    it := u.it + 1
    escape := fgt v.s Config.threshold }

/-- The NF check of R156: some value the ITER reads or produces is not finite. -/
def Etu.nonFinite (n : Nat) (u : Etu) : Bool :=
  let v := iterValues n u
  !(isfinite u.crq && isfinite u.ciq && isfinite v.t1 && isfinite v.zr && isfinite v.t2 && isfinite v.t3
    && isfinite v.zi && isfinite v.zrzr && isfinite v.zizi && isfinite v.s)

/-- The point is finished after an ITER that escaped or was the 50th (R155). -/
def Etu.finished (u : Etu) : Bool := u.escape || u.it.toNat == Config.iterMax

/-- Write ERES if the point is finished: (1, it) on an escape, else (0, 50) (R155). -/
def State.finishPoint (s : State) : State :=
  if s.etu.escape then { s with esc := true, count := s.etu.it }
  else if s.etu.it.toNat = Config.iterMax then { s with esc := false, count := s.etu.it }
  else s

/-- One ITER with its NF check and finish test, as one engine step performs it (R152, R155, R156). -/
def State.iterate (s : State) : State :=
  State.finishPoint
    { s with
      etu := s.etu.iter s.draws
      nf := s.nf || s.etu.nonFinite s.draws
      draws := s.draws + drawsPerIter }

/-! ## The bit-packer -/

/-- PACK_BIT(b, last) (42_bit_packer.md R181): a full flush at the eighth bit, else a padded flush at a row end, else
the bit is kept. -/
def Bpk.packBit (b last : Bool) (p : Bpk) : Bpk :=
  let acc := p.byteAcc * 2 + (BitVec.ofBool b).setWidth 8
  let n := p.bitNum.toNat + 1
  if n = 8 then ⟨p.sum ^^^ acc, 0, 0⟩
  else if last then ⟨p.sum ^^^ (acc <<< (8 - n)), 0, 0⟩
  else ⟨p.sum, acc, BitVec.ofNat 3 n⟩

/-- BPK_CLEAR (R194). -/
def State.bpkClear (s : State) : State := { s with bpk := Bpk.zero }

/-! ## Commands and reset -/

/-- The acceptance rule for a legal command other than NOP (44_host_access.md R243): while busy it is rejected with
ECAUSE = 10 and dropped; else its effect happens within the host access. -/
def acceptCommand (effect : State → State) (s : State) : Host.Outcome State Fault Refusal :=
  if s.busy then .next (s.reject .whileBusy) else .next (effect s)

/-- The reset event (70_reset_and_hazards.md R291): every register at its reset value, whatever the state was. SIZE
stays the build's, and the model's own fields stay (log 1, 7, 21). -/
def State.resetEvent (s : State) : State :=
  { State.reset with size := s.size, events := s.events, responses := s.responses, draws := s.draws }

end Sys2Proof.Machine
end

