-- ==== Sys2Proof/Machine/Engine.lean ====
section
/-!
DEFINITION. The engine agent: one engine step per phase (spec/43_sequencer.md R220-R223, 41_escape_test.md R159).
-/

namespace Sys2Proof.Machine

/-- The T_ITER step: one ITER; if the point finished, IDLE and DONE (41_escape_test.md R159). -/
def State.tIterStep (s : State) : State :=
  if s.iterate.etu.finished then { s.iterate with phase := .idle, done := true } else s.iterate

/-- The R_START step: the coordinates of (x, y), POINT_START, phase R_ITER (43_sequencer.md R221). Where the position
gives no coordinates the model has no step (log 9, 10). -/
def State.rStartStep (s : State) : Host.Outcome State Fault Refusal :=
  if s.size = 0 then .refused .noSuchBuild
  else
    match coordR s.size.toNat s.x.toNat, coordI s.size.toNat s.y.toNat with
    | some cr, some ci => .next { s with etu := Etu.pointStart cr ci, phase := .rIter }
    | _, _ => .refused .coordinateDomain

/-- The R_ITER step: one ITER; if the point finished, phase R_END (43_sequencer.md R222). -/
def State.rIterStep (s : State) : State :=
  if s.iterate.etu.finished then { s.iterate with phase := .rEnd } else s.iterate

/-- Whether x is the last column: x == SIZE - 1 (43_sequencer.md R215). -/
def State.lastColumn (s : State) : Bool := s.x.toNat + 1 == s.size.toNat

/-- The next position: the next column, or the first column of the next row (43_sequencer.md R223). -/
def State.advance (s : State) : State :=
  if s.lastColumn then { s with x := 0, y := s.y + 1 } else { s with x := s.x + 1 }

/-- The R_END step: pack ERES.ESC, advance the position, and after the last row IDLE and DONE, else R_START
(43_sequencer.md R223). -/
def State.rEndStep (s : State) : State :=
  let t := State.advance { s with bpk := s.bpk.packBit s.esc s.lastColumn }
  if t.y = t.size then { t with phase := .idle, done := true } else { t with phase := .rStart }

/-- One engine step: the action of the current phase. While the phase is IDLE the engine takes no step and the state
holds (43_sequencer.md R220, 60_exceptions.md R278). -/
def State.engineStep (s : State) : Host.Outcome State Fault Refusal :=
  match s.phase with
  | .idle => .next s
  | .tIter => .next s.tIterStep
  | .rStart => s.rStartStep
  | .rIter => .next s.rIterStep
  | .rEnd => .next s.rEndStep

/-- `n` engine steps in a row, with no host access or reset between them. -/
def State.engineSteps : Nat → State → Host.Outcome State Fault Refusal
  | 0, s => .next s
  | n + 1, s =>
    match s.engineStep with
    | .next t => State.engineSteps n t
    | .fault f => .fault f
    | .refused r => .refused r

end Sys2Proof.Machine
end

