-- ==== Sys2Proof/WellFormed.lean ====
section
/-!
DEFINITION. Well-formed command words, as field tables (spec/30_encoding.md R91, R92): which values of the five
fields of CMD32 make a command, and the fields of each command.
-/

namespace Sys2Proof

/-- The fields of a command word, from bit 0 upwards (30_encoding.md R91). -/
structure CommandFields where
  /-- Bits 2:0, OP. -/
  op : BitVec 3
  /-- Bits 7:3, reserved. -/
  rsvLow : BitVec 5
  /-- Bit 8, PBIT. -/
  pbit : BitVec 1
  /-- Bit 9, PLAST. -/
  plast : BitVec 1
  /-- Bits 31:10, reserved. -/
  rsvHigh : BitVec 22
  deriving DecidableEq, Repr

/-- The fields of a 32-bit word (R91). -/
def CommandFields.ofWord (v : Word) : CommandFields where
  op := v.extractLsb' 0 3
  rsvLow := v.extractLsb' 3 5
  pbit := v.extractLsb' 8 1
  plast := v.extractLsb' 9 1
  rsvHigh := v.extractLsb' 10 22

/-- The word that holds the fields (R91), rsvHigh in the highest bits. -/
def CommandFields.toWord (f : CommandFields) : Word :=
  f.rsvHigh ++ f.plast ++ f.pbit ++ f.rsvLow ++ f.op

/-- OP is one of the five values of R92; 101, 110 and 111 are reserved. -/
def CommandFields.opDefined (f : CommandFields) : Bool := decide (f.op.toNat ≤ 4)

/-- Bits 7:3 and 31:10 must be 0 (R91). -/
def CommandFields.reservedZero (f : CommandFields) : Bool := f.rsvLow == 0 && f.rsvHigh == 0

/-- PBIT and PLAST must be 0 for every OP but PACK (R91). -/
def CommandFields.packFieldsOnlyOnPack (f : CommandFields) : Bool :=
  f.op == 3 || (f.pbit == 0 && f.plast == 0)

/-- All of R91 and R92 at once: the field values of a legal command word. -/
def CommandFields.wf (f : CommandFields) : Bool :=
  f.opDefined && f.reservedZero && f.packFieldsOnlyOnPack

/-- The fields of each command (R92, R94). -/
def Instr.fields : Instr → CommandFields
  | .nop => ⟨0, 0, 0, 0, 0⟩
  | .run => ⟨1, 0, 0, 0, 0⟩
  | .test => ⟨2, 0, 0, 0, 0⟩
  | .pack b l => ⟨3, 0, BitVec.ofBool b, BitVec.ofBool l, 0⟩
  | .clear => ⟨4, 0, 0, 0, 0⟩

/-- An instruction is well-formed when its fields obey R91 and R92. -/
abbrev Instr.WellFormed (i : Instr) : Prop := i.fields.wf = true

end Sys2Proof
end

