-- ==== Sys2Proof/Decode.lean ====
section
/-!
DEFINITION. The command decoder of spec/30_encoding.md R95, total on every 32-bit word, and the encoder.
-/

namespace Sys2Proof

/-- Why a word is illegal: the three kinds R96 lists. The block records none of this (60_exceptions.md R263); the
name only says which rule the word breaks (log 23). -/
inductive IllegalWord where
  /-- OP is 101, 110 or 111. -/
  | reservedOp
  /-- A nonzero bit in 7:3 or 31:10. -/
  | reservedBits
  /-- Bit 8 or bit 9 set on a word whose OP is not PACK. -/
  | packFieldOnOther
  deriving DecidableEq, Repr

/-- The answer of the decoder: a command, or ILLEGAL with the reason (R95, R96). -/
inductive Decoded where
  | command (i : Instr)
  | illegal (why : IllegalWord)
  deriving DecidableEq, Repr

/-- The first of R96's kinds that an illegal word falls under. -/
def illegalReason (v : Word) : IllegalWord :=
  if 5 ≤ (CommandFields.ofWord v).op.toNat then .reservedOp
  else if (CommandFields.ofWord v).reservedZero then .packFieldOnOther
  else .reservedBits

/-- The decoder of R95, line by line. -/
def decode (v : Word) : Decoded :=
  if v = 0x00000000#32 then .command .nop
  else if v = 0x00000001#32 then .command .run
  else if v = 0x00000002#32 then .command .test
  else if v &&& 0xFFFFFCFF#32 = 0x00000003#32 then .command (.pack (v.getLsbD 8) (v.getLsbD 9))
  else if v = 0x00000004#32 then .command .clear
  else .illegal (illegalReason v)

/-- The command word of an instruction, from the field tables R91 and R92. -/
def encode (i : Instr) : Word := i.fields.toWord

/-- A row of the table of exact patterns (R93): a word selects the row when `word & mask = pattern`. -/
structure OpcodeRow where
  mnemonic : String
  pattern : Word
  mask : Word
  deriving DecidableEq, Repr

/-- The table of exact patterns (R93). -/
def opcodeRows : List OpcodeRow :=
  [⟨"NOP", 0x00000000#32, 0xFFFFFFFF#32⟩,
   ⟨"RUN", 0x00000001#32, 0xFFFFFFFF#32⟩,
   ⟨"TEST", 0x00000002#32, 0xFFFFFFFF#32⟩,
   ⟨"PACK", 0x00000003#32, 0xFFFFFCFF#32⟩,
   ⟨"CLEAR", 0x00000004#32, 0xFFFFFFFF#32⟩]

/-- Whether a word selects a row (R93). -/
def OpcodeRow.selects (r : OpcodeRow) (v : Word) : Bool := v &&& r.mask == r.pattern

/-- The mnemonic of a command, as R92 and spec/opcode_table.json spell it. -/
def Instr.mnemonic : Instr → String
  | .nop => "NOP"
  | .run => "RUN"
  | .test => "TEST"
  | .pack _ _ => "PACK"
  | .clear => "CLEAR"

/-- The word the host's table numbering stands for: the low `nbits` bits of `w`, every bit above them 0. -/
def tableWord (nbits w : Nat) : Word := BitVec.ofNat 32 (w % 2 ^ nbits)

/-- The instruction the decoder reads from the low `nbits` bits of `w`, for the host's question about the table: none
for an illegal word, and for a number that does not fit one 32-bit command word (R98). -/
def decodeTableWord (nbits w : Nat) : Option Instr :=
  if w % 2 ^ nbits < 2 ^ 32 then
    match decode (tableWord nbits w) with
    | .command i => some i
    | .illegal _ => none
  else none

end Sys2Proof
end

