-- ==== Sys2Proof/Machine/BitPacker.lean ====
section
/-!
DEFINITION. The commands of the bit-packer, PACK and CLEAR (spec/42_bit_packer.md R192, R193).
-/

namespace Sys2Proof.Machine

/-- PACK b, l: PACK_BIT(PBIT, PLAST = 1) within the accepting host access (R192). -/
def execPack (pbit plast : Bool) (s : State) : Host.Outcome State Fault Refusal :=
  acceptCommand (fun s => { s with bpk := s.bpk.packBit pbit plast }) s

/-- CLEAR: BPK_CLEAR within the accepting host access; a partial byte is discarded, not folded (R193). -/
def execClear (s : State) : Host.Outcome State Fault Refusal := acceptCommand State.bpkClear s

end Sys2Proof.Machine
end

