-- ==== Sys2Proof/Machine/EscapeTest.lean ====
section
/-!
DEFINITION. The command of the escape-test unit, TEST (spec/41_escape_test.md R158).
-/

namespace Sys2Proof.Machine

/-- What an accepted TEST does: POINT_START(CR, CI), DONE cleared, phase T_ITER (R158). -/
def State.startTest (s : State) : State :=
  { s with etu := Etu.pointStart s.cr s.ci, done := false, phase := .tIter }

/-- TEST (R158). -/
def execTest (s : State) : Host.Outcome State Fault Refusal := acceptCommand State.startTest s

end Sys2Proof.Machine
end

