-- ==== Sys2Proof/Machine/Sequencer.lean ====
section
/-!
DEFINITION. The commands of the sequencer, NOP and RUN (spec/43_sequencer.md R216, R217).
-/

namespace Sys2Proof.Machine

/-- NOP: nothing, accepted whether or not the block is busy (R216). -/
def execNop (s : State) : Host.Outcome State Fault Refusal := .next s

/-- What an accepted RUN does: BPK_CLEAR, the position (0, 0), DONE cleared, phase R_START (R217). -/
def State.startRun (s : State) : State :=
  { s.bpkClear with x := 0, y := 0, done := false, phase := .rStart }

/-- RUN (R217). -/
def execRun (s : State) : Host.Outcome State Fault Refusal := acceptCommand State.startRun s

end Sys2Proof.Machine
end

