-- ==== Sys2Proof/Machine/Dispatch.lean ====
section
/-! DEFINITION. The meaning of every command (spec/44_host_access.md R243): one arm per constructor of Instr. -/

namespace Sys2Proof.Machine

def exec (i : Instr) (s : State) : Host.Outcome State Fault Refusal :=
  match i with
  | .nop => Sys2Proof.Machine.execNop s
  | .run => Sys2Proof.Machine.execRun s
  | .test => Sys2Proof.Machine.execTest s
  | .pack pbit plast => Sys2Proof.Machine.execPack pbit plast s
  | .clear => Sys2Proof.Machine.execClear s

end Sys2Proof.Machine
end

