-- ==== Sys2Proof/Machine/HostAccess.lean ====
section
/-!
DEFINITION. The host's side: the register map (spec/10_state.md R23), what each read returns
(44_host_access.md R241, R247) and what each write does (R242-R246).
-/

namespace Sys2Proof.Machine

/-- The registers of the window by name (10_state.md R23). -/
inductive Reg where
  | ctrl | status | sum | packst | crLo | crHi | ciLo | ciHi | eres | pos | cfg | id | reserved
  deriving DecidableEq, Repr

/-- The register at a word index; words 12 to 15 are reserved (R23, R38). -/
def regAt (w : Index) : Reg :=
  match w.toNat with
  | 0 => .ctrl
  | 1 => .status
  | 2 => .sum
  | 3 => .packst
  | 4 => .crLo
  | 5 => .crHi
  | 6 => .ciLo
  | 7 => .ciHi
  | 8 => .eres
  | 9 => .pos
  | 10 => .cfg
  | 11 => .id
  | _ => .reserved

/-- The value `Read w` returns while the block is quiescent (44_host_access.md R241). -/
def State.readExact (s : State) : Reg → Word
  | .ctrl => 0
  | .status => s.statusWord
  | .sum => s.bpk.sum.setWidth 32
  | .packst => (s.bpk.bitNum ++ s.bpk.byteAcc : BitVec (3 + 8)).setWidth 32
  | .crLo => lowHalf s.cr
  | .crHi => highHalf s.cr
  | .ciLo => lowHalf s.ci
  | .ciHi => highHalf s.ci
  | .eres => (s.count ++ 0#7 ++ BitVec.ofBool s.esc : BitVec (6 + 7 + 1)).setWidth 32
  | .pos => (s.y ++ s.x : BitVec (16 + 16))
  | .cfg => (BitVec.ofNat 8 Config.iterMax ++ s.size : BitVec (8 + 16)).setWidth 32
  | .id => Config.idWord
  | .reserved => 0

/-- The drawn fields while a RUN is busy: SUM, PACKST, ERES, POS and STATUS.NF (44_host_access.md R247). -/
def drawnInRun : Reg → Word
  | .status => 0x00000008#32
  | .sum => 0x000000FF#32
  | .packst => 0x000007FF#32
  | .eres => 0x00003F01#32
  | .pos => 0xFFFFFFFF#32
  | _ => 0

/-- The drawn fields while a TEST is busy: ERES and STATUS.NF (R247). -/
def drawnInTest : Reg → Word
  | .status => 0x00000008#32
  | .eres => 0x00003F01#32
  | _ => 0

/-- The bits of a register that are draws, by the value of MODE; none while IDLE (R247). -/
def drawnBits (mode : BitVec 2) (r : Reg) : Word :=
  if mode = 0b10#2 then drawnInRun r else if mode = 0b01#2 then drawnInTest r else 0

/-- The value a read returns: as R241 says where no bit is drawn, else the drawn bits from the draw and every other
bit as R241 says (R247; log 6). -/
def State.readValue (s : State) (r : Reg) : Word :=
  if drawnBits (modeBits s.phase) r = 0 then s.readExact r
  else
    (s.readExact r &&& ~~~(drawnBits (modeBits s.phase) r)) |||
      (Config.busyDraw s.draws &&& drawnBits (modeBits s.phase) r)

/-- `Read w` (R241, R248; 20_memory.md R80): one response with the value, and no other change but the draw index. -/
def State.hostRead (w : Index) (s : State) : State :=
  { s with
    responses := s.responses ++ [s.readValue (regAt w)]
    draws := if drawnBits (modeBits s.phase) (regAt w) = 0 then s.draws else s.draws + 1 }

/-- A write of v to CTRL presents the command word v: a legal word is run or rejected by `exec`, an illegal word is
rejected with ECAUSE = 01, busy or not (R243). -/
def writeCtrl (v : Word) (s : State) : Host.Outcome State Fault Refusal :=
  match decode v with
  | .command i => exec i s
  | .illegal _ => .next (s.reject .illegalWord)

/-- `Write w v` (R242): CTRL presents a command, STATUS clears by writing 1, CR and CI take a half (R245), and every
other word ignores the write and sets no flag (R246). -/
def hostWrite (w : Index) (v : Word) (s : State) : Host.Outcome State Fault Refusal :=
  match regAt w with
  | .ctrl => writeCtrl v s
  | .status => .next (s.writeStatus v)
  | .crLo => .next { s with cr := setLowHalf s.cr v }
  | .crHi => .next { s with cr := setHighHalf s.cr v }
  | .ciLo => .next { s with ci := setLowHalf s.ci v }
  | .ciHi => .next { s with ci := setHighHalf s.ci v }
  | .sum => .next s
  | .packst => .next s
  | .eres => .next s
  | .pos => .next s
  | .cfg => .next s
  | .id => .next s
  | .reserved => .next s

/-- One host access (20_memory.md R75). -/
def hostAccess (a : Access) (s : State) : Host.Outcome State Fault Refusal :=
  match a with
  | .read w => .next (s.hostRead w)
  | .write w v => hostWrite w v s

end Sys2Proof.Machine
end

