-- ==== Sys2Proof/Machine/Step.lean ====
section
/-!
DEFINITION. One step of the block: the next atomic event (spec/20_memory.md R73, 44_host_access.md R240).
-/

namespace Sys2Proof.Machine

/-- The next event of the list happens: a host access, the engine's turn (nothing if the engine has no work), or a
reset. When no event is waiting, a busy engine steps (70_reset_and_hazards.md R303) and an idle block holds its state
(60_exceptions.md R278; log 2, 3). -/
def step (s : State) : Host.Outcome State Fault Refusal :=
  match s.events with
  | [] => s.engineStep
  | .access a :: rest => hostAccess a { s with events := rest }
  | .engine :: rest => State.engineStep { s with events := rest }
  | .reset :: rest => .next (State.resetEvent { s with events := rest })

/-- The host presents a command word first: the very next step is the write of it to CTRL. The block fetches nothing
(10_state.md R21), so this is where an instruction comes from (log 16). -/
def State.withFetchWord (s : State) (nbits w : Nat) : State :=
  { s with events := .access (.write 0 (tableWord nbits w)) :: s.events }

end Sys2Proof.Machine
end

