-- ==== Sys2Proof/Machine/Functions.lean ====
section
/-!
DEFINITION. The pure functions the spec says the block computes: escape_test (spec/41_escape_test.md R157), checksum
(43_sequencer.md R218), its closed form (42_bit_packer.md R191) and the step counts (43_sequencer.md R225).
They are written over the point and the grid alone, with no State.
-/

namespace Sys2Proof.Machine

/-- What escape_test returns: (esc, count, nf). -/
structure PointResult where
  esc : Bool
  count : BitVec 6
  nf : Bool
  deriving DecidableEq, Repr

/-- The loop of R157 with `k` iterations left, from the ETU registers `u`, at draw index `n`. -/
def escapeLoop : Nat → Nat → Bool → Etu → PointResult
  | 0, _, nf, u => ⟨false, u.it, nf⟩
  | k + 1, n, nf, u =>
    if (u.iter n).escape then ⟨true, (u.iter n).it, nf || u.nonFinite n⟩
    else escapeLoop k (n + drawsPerIter) (nf || u.nonFinite n) (u.iter n)

/-- `escape_test(c_r, c_i)` (R157), taking its NaN draws from index `n` on. -/
def escapeTest (n : Nat) (cr ci : F64) : PointResult :=
  escapeLoop Config.iterMax n false (Etu.pointStart cr ci)

/-- The result of the grid point (x, y) of a SIZE = `size` grid, none outside the grid (R210, R211). -/
def gridPoint (size x y : Nat) : Option PointResult :=
  match coordR size x, coordI size y with
  | some cr, some ci => some (escapeTest 0 cr ci)
  | _, _ => none

/-- E(x, y) of R191: the escape flag of a grid point, and 0 for a column or row outside the grid. -/
def escapeFlag (size x y : Nat) : Bool :=
  match gridPoint size x y with
  | some r => r.esc
  | none => false

/-- The packer after the first `x` columns of row `y`, starting from `p` (R215, R218). -/
def packRow (size y : Nat) (p : Bpk) : Nat → Bpk
  | 0 => p
  | x + 1 => (packRow size y p x).packBit (escapeFlag size x y) (x + 1 == size)

/-- The packer after the first `y` rows (R218). -/
def packRows (size : Nat) : Nat → Bpk
  | 0 => Bpk.zero
  | y + 1 => packRow size y (packRows size y) size

/-- `checksum(n)` (R218). -/
def checksum (size : Nat) : BitVec 8 := (packRows size size).sum

/-- byte(y, j): the escape flags of columns 8j to 8j + 7, the earliest in bit 7 (R191). -/
def rowByte (size y j : Nat) : BitVec 8 :=
  (List.range 8).foldl
    (fun acc i => acc + (if escapeFlag size (8 * j + i) y then (1#8 <<< (7 - i)) else 0)) 0

/-- The XOR of a row's ceil(SIZE / 8) bytes (R191). -/
def rowFold (size y : Nat) : BitVec 8 :=
  (List.range ((size + 7) / 8)).foldl (fun acc j => acc ^^^ rowByte size y j) 0

/-- The XOR of the folds of the rows in a list, in the list's order (R191, 60_exceptions.md R276). -/
def foldRows (size : Nat) (rows : List Nat) : BitVec 8 :=
  rows.foldl (fun acc y => acc ^^^ rowFold size y) 0

/-- The engine steps of one grid point: R_START, COUNT times R_ITER, R_END (R225). -/
def pointSteps (size x y : Nat) : Nat :=
  match gridPoint size x y with
  | some r => r.count.toNat + 2
  | none => 0

/-- The engine steps of a whole RUN (R225). -/
def runSteps (size : Nat) : Nat :=
  ((List.range size).map fun y => ((List.range size).map fun x => pointSteps size x y).sum).sum

end Sys2Proof.Machine
end

