-- ==== Sys2Proof/Machine/Platform.lean ====
section
/-!
DEFINITION. The edge to the platform: the request port (spec/20_memory.md R79), a byte-addressed platform's decoding
of the window (R61, R63, R66), and the host presenting further accesses (R72).
-/

namespace Sys2Proof.Machine

/-- The bus triple (req_we, req_w, req_wdata) of a transferred access (20_memory.md R79); a read drives no write
data, and whatever stands there is ignored. -/
def Access.ofRequest (we : Bool) (w : Index) (wdata : Word) : Access := if we then .write w wdata else .read w

/-- The word index a byte-addressed platform presents: w = (byte address - base)[5:2] for an aligned 4-byte access
inside the window, and none for any other, which the bridge must not forward (R61, R66; log 13). -/
def wordIndexAt (base addr bytes : Nat) : Option Index :=
  if bytes = 4 ∧ base ≤ addr ∧ addr < base + 64 ∧ (addr - base) % 4 = 0 then
    some (BitVec.ofNat 4 ((addr - base) / 4))
  else none

/-- The word index for this platform's base, the open parameter HIF_BASE (R63). -/
def wordIndexOf (addr bytes : Nat) : Option Index := wordIndexAt Config.hifBase addr bytes

/-- The host issues one more access, after every event already waiting (R72). -/
def State.present (a : Access) (s : State) : State := { s with events := s.events ++ [.access a] }

end Sys2Proof.Machine
end

