-- ==== Sys2Proof/Machine/Script.lean ====
section
/-!
DEFINITION. Host scripts (spec/30_encoding.md R102, R103): the statements, their expansion into host accesses, the bus
triples, and the reading of a script's text. A script runs on the host; the block sees only its accesses.
-/

namespace Sys2Proof.Machine

/-- A statement of a host script: RD, WR, or a pseudo-instruction (R102, R103). POLL and TESTPT carry how many times
the host's loop goes back to its STATUS read, which the host decides from the values it reads (log 14). -/
inductive Stmt where
  | rd (w : Index) (expected : Option Word)
  | wr (w : Index) (v : Word)
  | nop
  | run
  | test
  | pack (b l : Bool)
  | clear
  | setCr (f : F64)
  | setCi (f : F64)
  | w1c (m : Word)
  | poll (again : Nat)
  | testPt (a b : F64) (again : Nat)
  deriving DecidableEq, Repr

/-- `SETCR f`: the low half, then the high half (R103). -/
def expandSetCr (f : F64) : List Access := [.write 4 (lowHalf f), .write 5 (highHalf f)]

/-- `SETCI f` (R103). -/
def expandSetCi (f : F64) : List Access := [.write 6 (lowHalf f), .write 7 (highHalf f)]

/-- `POLL`: RD STATUS, and again as often as the host's loop repeats (R103). -/
def expandPoll (again : Nat) : List Access := List.replicate (again + 1) (.read 1)

/-- The accesses of a statement (R102, R103). -/
def Stmt.expand : Stmt → List Access
  | .rd w _ => [.read w]
  | .wr w v => [.write w v]
  | .nop => [.write 0 0x00000000#32]
  | .run => [.write 0 0x00000001#32]
  | .test => [.write 0 0x00000002#32]
  | .pack b l => [.write 0 (0x00000003#32 ||| ((BitVec.ofBool b).setWidth 32 <<< 8)
      ||| ((BitVec.ofBool l).setWidth 32 <<< 9))]
  | .clear => [.write 0 0x00000004#32]
  | .setCr f => expandSetCr f
  | .setCi f => expandSetCi f
  | .w1c m => [.write 1 m]
  | .poll again => expandPoll again
  | .testPt a b again => expandSetCr a ++ expandSetCi b ++ [.write 0 0x00000002#32] ++ expandPoll again

/-- The bus triple (we, w, wdata) of an access; a read has no write data (R102). -/
def Access.triple : Access → Bool × Index × Option Word
  | .read w => (false, w, none)
  | .write w v => (true, w, some v)

/-- Whether the host's POLL loop goes on after reading a STATUS value: bit 0 is 1 (R103). -/
def pollGoesOn (v : Word) : Bool := v.getLsbD 0

/-- The STATUS values a complete POLL has read: busy each time but the last (R103). -/
def pollComplete : List Word → Bool
  | [] => false
  | [v] => !pollGoesOn v
  | v :: vs => pollGoesOn v && pollComplete vs

/-- A script's accesses, waiting for the block in program order (R72). -/
def scriptEvents (script : List Stmt) : List Event := (script.flatMap Stmt.expand).map .access

/-! ## Reading a script's text (R102; log 15) -/

/-- The value of a decimal digit. -/
def decDigit (c : Char) : Option Nat :=
  if 48 ≤ c.toNat ∧ c.toNat ≤ 57 then some (c.toNat - 48) else none

/-- The value of a hexadecimal digit, in lower case. -/
def hexDigit (c : Char) : Option Nat :=
  if 97 ≤ c.toNat ∧ c.toNat ≤ 102 then some (c.toNat - 87) else decDigit c

/-- A number in a base, given by its digit function; none on an empty or malformed text. -/
def digits (base : Nat) (digit : Char → Option Nat) : List Char → Option Nat
  | [] => none
  | c :: cs =>
    cs.foldl (fun acc d => acc.bind fun n => (digit d).map fun k => base * n + k) (digit c)

/-- The text after "0x", or none. -/
def afterHexMark : List Char → Option (List Char)
  | '0' :: 'x' :: cs => some cs
  | _ => none

/-- `value`: "0x" and 1 to 8 hexadecimal digits, or a decimal 32-bit number. -/
def readValue (cs : List Char) : Option Word :=
  match afterHexMark cs with
  | some hs => if hs.length ≤ 8 then (digits 16 hexDigit hs).map (BitVec.ofNat 32) else none
  | none =>
    match digits 10 decDigit cs with
    | some n => if n < 2 ^ 32 then some (BitVec.ofNat 32 n) else none
    | none => none

/-- The binary64 nearest to m * 10^e, ties to even, with a sign (R102: "rounded to binary64, nearest-even"). -/
def roundDecimal (negative : Bool) (m : Nat) (e : Int) : F64 :=
  let n : Nat := m * 10 ^ e.toNat * oneUnits
  round (if negative then -(n : Int) else (n : Int)) (10 ^ (-e).toNat) negative

/-- Split a text at the first character that satisfies a test; the character itself is dropped. -/
def splitAtChar (p : Char → Bool) : List Char → List Char × Option (List Char)
  | [] => ([], none)
  | c :: cs => if p c then ([], some cs) else ((c :: (splitAtChar p cs).1), (splitAtChar p cs).2)

/-- A decimal exponent with an optional sign. -/
def readExponent : List Char → Option Int
  | '-' :: cs => (digits 10 decDigit cs).map fun n => -(n : Int)
  | '+' :: cs => (digits 10 decDigit cs).map fun n => (n : Int)
  | cs => (digits 10 decDigit cs).map fun n => (n : Int)

/-- An unsigned decimal float: digits, an optional fraction, an optional exponent. -/
def readUnsignedFloat (negative : Bool) (cs : List Char) : Option F64 :=
  let (mantissa, expo) := splitAtChar (· == 'e') cs
  let (whole, fraction) := splitAtChar (· == '.') mantissa
  match digits 10 decDigit (whole ++ fraction.getD []), (expo.map readExponent).getD (some 0) with
  | some m, some e => some (roundDecimal negative m (e - ((fraction.getD []).length : Int)))
  | _, _ => none

/-- `f64`: "0x" and 16 hexadecimal digits, or a decimal float. -/
def readFloat (cs : List Char) : Option F64 :=
  match afterHexMark cs with
  | some hs => if hs.length = 16 then (digits 16 hexDigit hs).map (BitVec.ofNat 64) else none
  | none =>
    match cs with
    | '-' :: rest => readUnsignedFloat true rest
    | _ => readUnsignedFloat false cs

/-- A bit written as 0 or 1. -/
def readBit : List Char → Option Bool
  | ['0'] => some false
  | ['1'] => some true
  | _ => none

/-- The register names of R102, in lower case, with their word indexes (10_state.md R23). -/
def registerNames : List (List Char × Index) :=
  [("ctrl".toList, 0), ("status".toList, 1), ("sum".toList, 2), ("packst".toList, 3), ("cr_lo".toList, 4),
   ("cr_hi".toList, 5), ("ci_lo".toList, 6), ("ci_hi".toList, 7), ("eres".toList, 8), ("pos".toList, 9),
   ("cfg".toList, 10), ("id".toList, 11)]

/-- `reg`: a register name, or "W" and a word index. -/
def readReg (cs : List Char) : Option Index :=
  match registerNames.find? (fun p => p.1 == cs), cs with
  | some p, _ => some p.2
  | none, 'w' :: ds =>
    match digits 10 decDigit ds with
    | some n => if n < 16 then some (BitVec.ofNat 4 n) else none
    | none => none
  | none, _ => none

/-- The token read so far, as a list of no or one token. -/
def flushToken (cur : List Char) : List (List Char) := if cur.isEmpty then [] else [cur]

/-- The tokens of a line, in lower case, up to a comment; ',' ':' and '->' are tokens of their own. -/
def lexLine (cur : List Char) : List Char → List (List Char)
  | [] => flushToken cur
  | ';' :: _ => flushToken cur
  | '-' :: '>' :: cs => flushToken cur ++ ['-', '>'] :: lexLine [] cs
  | c :: cs =>
    if c == ',' || c == ':' then flushToken cur ++ [c] :: lexLine [] cs
    else if c.isWhitespace then flushToken cur ++ lexLine [] cs
    else lexLine (cur ++ [c.toLower]) cs

/-- A statement from its mnemonic and the tokens after it; none is a syntax error. POLL and TESTPT get `again`. -/
def readStmt (again : Nat) (mnemonic : List Char) (args : List (List Char)) : Option Stmt :=
  match args with
  | [] =>
    if mnemonic = "nop".toList then some .nop
    else if mnemonic = "run".toList then some .run
    else if mnemonic = "test".toList then some .test
    else if mnemonic = "clear".toList then some .clear
    else if mnemonic = "poll".toList then some (.poll again)
    else none
  | [a] =>
    if mnemonic = "rd".toList then (readReg a).map fun w => .rd w none
    else if mnemonic = "setcr".toList then (readFloat a).map .setCr
    else if mnemonic = "setci".toList then (readFloat a).map .setCi
    else if mnemonic = "w1c".toList then (readValue a).map .w1c
    else none
  | [a, sep, b] =>
    if sep = ['-', '>'] then
      if mnemonic = "rd".toList then (readReg a).bind fun w => (readValue b).map fun v => .rd w (some v)
      else none
    else if sep = [','] then
      if mnemonic = "wr".toList then (readReg a).bind fun w => (readValue b).map fun v => .wr w v
      else if mnemonic = "pack".toList then (readBit a).bind fun x => (readBit b).map fun l => .pack x l
      else if mnemonic = "testpt".toList then (readFloat a).bind fun x => (readFloat b).map fun z => .testPt x z again
      else none
    else none
  | _ => none

/-- A line: an optional label, an optional statement, an optional comment. The outer none is a syntax error, the
inner none a line without a statement. -/
def readLine (again : Nat) (line : List Char) : Option (Option Stmt) :=
  match lexLine [] line with
  | [] => some none
  | [_, [':']] => some none
  | _ :: [':'] :: m :: args => (readStmt again m args).map some
  | m :: args => (readStmt again m args).map some

/-- The lines of a text. -/
def splitLines : List Char → List (List Char)
  | [] => [[]]
  | c :: cs =>
    if c == '\n' then [] :: splitLines cs
    else
      match splitLines cs with
      | [] => [[c]]
      | l :: ls => (c :: l) :: ls

/-- A script's statements from its text, none on a syntax error (R102). -/
def readScript (again : Nat) (text : List Char) : Option (List Stmt) :=
  (splitLines text).foldr
    (fun line acc => (readLine again line).bind fun s => acc.map fun ss => s.toList ++ ss) (some [])

end Sys2Proof.Machine
end

