-- ==== Sys2Proof/Safety.lean ====
section
/-!
DEFINITION. What a state of a run looks like: the invariants of spec/10_state.md R44 and the further facts the rules
give between steps, and the clean-entry predicate of 70_reset_and_hazards.md R295.
-/

namespace Sys2Proof.Machine

/-- The block is quiescent: STATUS.BUSY = 0 (00_scope.md R13, 70_reset_and_hazards.md R295). -/
abbrev State.Quiescent (s : State) : Prop := s.busy = false

/-- The next step is the engine's: it stands first in the list of events, or no event waits (44_host_access.md R240,
"Step"; log 2, 3). -/
abbrev State.EngineTurn (s : State) : Prop := s.events = [] ∨ ∃ rest, s.events = .engine :: rest

/-- The engine is in one of the three phases of a RUN (10_state.md R42). -/
abbrev State.inRun (s : State) : Prop := s.phase = .rStart ∨ s.phase = .rIter ∨ s.phase = .rEnd

/-- The engine is iterating on a point (10_state.md R42). -/
abbrev State.iterating (s : State) : Prop := s.phase = .tIter ∨ s.phase = .rIter

/-- The invariants that hold between steps in every reachable state. -/
structure State.Inv (s : State) : Prop where
  /-- There is a build: 1 <= SIZE (00_scope.md R8). -/
  build : s.size ≠ 0
  /-- byte_acc < 2^bit_num (10_state.md R44, 42_bit_packer.md R186). -/
  packed : s.bpk.byteAcc.toNat < 2 ^ s.bpk.bitNum.toNat
  /-- it <= 50 (10_state.md R44), and below 50 while a point is in work (41_escape_test.md R155). -/
  counter : s.etu.it.toNat ≤ 50 ∧ (s.iterating → s.etu.it.toNat < 50)
  /-- In a RUN phase the position is on the grid (10_state.md R44). -/
  onGrid : s.inRun → s.x.toNat < s.size.toNat ∧ s.y.toNat < s.size.toNat
  /-- Outside a RUN the position is where reset or the last completed RUN left it (10_state.md R35, R44). -/
  offGrid : ¬ s.inRun → s.x = 0 ∧ (s.y = 0 ∨ s.y = s.size)
  /-- In a RUN the packer holds x mod 8 bits; so every row starts with none (42_bit_packer.md R189). -/
  rowStart : s.inRun → s.bpk.bitNum.toNat = s.x.toNat % 8
  /-- ERES is (0, 0) until a point finishes; then COUNT is 1..50 and ESC = 0 comes with 50 (10_state.md R34,
  41_escape_test.md R155). -/
  result : (s.count = 0 ∧ s.esc = false) ∨
    (1 ≤ s.count.toNat ∧ s.count.toNat ≤ 50 ∧ (s.esc = false → s.count.toNat = 50))
  /-- DONE is cleared when a TEST or RUN is accepted and set when it ends (10_state.md R27). -/
  doneIdle : s.done = true → s.phase = .idle
  /-- ECAUSE is 00 exactly when no rejection is recorded (60_exceptions.md R261). -/
  cause : s.ecause = .none ↔ s.err = false

end Sys2Proof.Machine
end

