-- ==== Sys2Proof/Certificates/Slice0/Obligations.lean ====
section
/-!
DEFINITION. The statements for the provers. The block has no memory (spec/20_memory.md R60), so a frame says which
fields of State stay; a conclusion that gives the whole next state says the frame with it. The model's own fields are
`events`, `responses` and `draws` (log 2, 4, 7).
-/

open Sys2Proof Sys2Proof.Machine

/-! ## Encoding -/

/-- Words written out from R93 and the table of 95_test_vectors.md section 6.1. -/
def Obligations.ListedWordsDecode : Prop :=
  decode 0x00000000#32 = .command .nop ∧ decode 0x00000001#32 = .command .run ∧
  decode 0x00000002#32 = .command .test ∧ decode 0x00000003#32 = .command (.pack false false) ∧
  decode 0x00000103#32 = .command (.pack true false) ∧ decode 0x00000203#32 = .command (.pack false true) ∧
  decode 0x00000303#32 = .command (.pack true true) ∧ decode 0x00000004#32 = .command .clear ∧
  (∀ i, decode 0x00000008#32 ≠ .command i) ∧ (∀ i, decode 0x00000101#32 ≠ .command i) ∧
  (∀ i, decode 0x00000204#32 ≠ .command i) ∧ (∀ i, decode 0x00000403#32 ≠ .command i)

/-- R93: a word is an operation exactly when the table's row for that operation selects it, PACK's fields are bits 8 and
9, no two rows select one word, and exactly the eight listed words are legal. -/
def Obligations.OpcodeRowsSelectTheCommand : Prop :=
  (∀ v : Word, ∀ r ∈ opcodeRows, (v &&& r.mask = r.pattern ↔ ∃ i, decode v = .command i ∧ i.mnemonic = r.mnemonic)) ∧
  (∀ (v : Word) (b l : Bool), decode v = .command (.pack b l) → b = v.getLsbD 8 ∧ l = v.getLsbD 9) ∧
  (∀ v : Word, ∀ r ∈ opcodeRows, ∀ q ∈ opcodeRows, v &&& r.mask = r.pattern → v &&& q.mask = q.pattern → r = q) ∧
  (∀ v : Word, (∃ i, decode v = .command i) ↔
    v.toNat ∈ [0x000, 0x001, 0x002, 0x004, 0x003, 0x103, 0x203, 0x303])

/-- Decoding and encoding agree, in both directions and for every field value: a word decodes to a command exactly when
it is that command's encoding, and every encoding obeys the field rules of R91. -/
def Obligations.DecodeEncodeAgree : Prop :=
  (∀ (v : Word) (i : Instr), decode v = .command i ↔ encode i = v) ∧
  (∀ i : Instr, i.WellFormed ∧ CommandFields.ofWord (encode i) = i.fields)

/-- R96: the illegal words are those with OP 101, 110 or 111, a nonzero bit in 7:3 or 31:10, or bit 8 or 9 on an OP
other than PACK; writing one to CTRL sets ERR with ECAUSE = 01 and does nothing else, busy or not. -/
def Obligations.IllegalWordsOnlySetErr : Prop :=
  ∀ v : Word,
    ((∃ why, decode v = .illegal why) ↔
      (5 ≤ v.toNat % 8 ∨ v.toNat / 8 % 32 ≠ 0 ∨ v.toNat / 1024 ≠ 0 ∨
        (v.toNat % 8 ≠ 3 ∧ (v.getLsbD 8 = true ∨ v.getLsbD 9 = true)))) ∧
    ∀ (s : State) (rest : List Event), (∃ why, decode v = .illegal why) →
      s.events = .access (.write 0 v) :: rest →
      step s = .next { s with events := rest, err := true, ecause := .illegalWord }

/-! ## Steps and commands -/

/-- What a step does with the next event: a host access is `hostAccess` of it on the state with that event taken, a read
being `hostRead` and a write `hostWrite` (R75, R241, R242), so a CTRL write of a legal word is `exec` of its command
(R243); the engine's turn is one engine step (R220). The model's own choices here: that the order of events is a list and
that an engine turn is an entry of it (log 2, 3), that the engine steps where no event waits (log 3), and, the last clause,
that `withFetchWord` stands for the host's CTRL write (log 16). -/
def Obligations.StepRunsDecodedCommand : Prop :=
  (∀ (s : State) (rest : List Event) (a : Access),
    s.events = .access a :: rest → step s = hostAccess a { s with events := rest }) ∧
  (∀ (s : State) (w : Index) (v : Word),
    hostAccess (.read w) s = .next (s.hostRead w) ∧ hostAccess (.write w v) s = hostWrite w v s) ∧
  (∀ (s : State) (rest : List Event) (v : Word) (i : Instr),
    s.events = .access (.write 0 v) :: rest → decode v = .command i → step s = exec i { s with events := rest }) ∧
  (∀ (s : State) (rest : List Event),
    s.events = .engine :: rest → step s = State.engineStep { s with events := rest }) ∧
  (∀ s : State, s.events = [] → step s = s.engineStep) ∧
  (∀ (s : State) (i : Instr), step (s.withFetchWord 32 (encode i).toNat) = exec i s)

/-- R243: what a write of v to CTRL does, for every word and every state. -/
def Obligations.CtrlWriteAcceptance : Prop :=
  ∀ (v : Word) (s : State),
    hostWrite 0 v s =
      match decode v with
      | .illegal _ => .next { s with err := true, ecause := .illegalWord }
      | .command .nop => .next s
      | .command .run =>
        if s.phase ≠ .idle then .next { s with err := true, ecause := .whileBusy }
        else .next { s with bpk := ⟨0, 0, 0⟩, x := 0, y := 0, done := false, phase := .rStart }
      | .command .test =>
        if s.phase ≠ .idle then .next { s with err := true, ecause := .whileBusy }
        else .next { s with etu := ⟨0, 0, 0, 0, s.cr, s.ci, 0, false⟩, done := false, phase := .tIter }
      | .command (.pack b l) =>
        if s.phase ≠ .idle then .next { s with err := true, ecause := .whileBusy }
        else .next { s with bpk := s.bpk.packBit b l }
      | .command .clear =>
        if s.phase ≠ .idle then .next { s with err := true, ecause := .whileBusy }
        else .next { s with bpk := ⟨0, 0, 0⟩ }

/-- R216: NOP completes in every state, busy or not, and leaves it as it is. -/
def Obligations.NopDoesNothing : Prop := ∀ s : State, exec .nop s = .next s

/-- An accepted RUN clears the packer, the position and DONE and enters R_START; nothing else changes (R217,
acceptance). -/
def Obligations.RunAccepted : Prop :=
  ∀ s : State, s.phase = .idle →
    exec .run s = .next { s with bpk := ⟨0, 0, 0⟩, x := 0, y := 0, done := false, phase := .rStart }

/-- An accepted TEST latches CR and CI, starts the point from zeros and enters T_ITER; nothing else changes (R158,
acceptance; R150, with the internal escape flag of log 8). -/
def Obligations.TestAccepted : Prop :=
  ∀ s : State, s.phase = .idle →
    exec .test s = .next { s with etu := ⟨0, 0, 0, 0, s.cr, s.ci, 0, false⟩, done := false, phase := .tIter }

/-- R181: an accepted PACK, as integer arithmetic: acc = 2 * byte_acc + b and n = bit_num + 1; a full flush at n = 8,
else a padded flush when last, else the bit is kept; nothing but the packer changes (R192). Results are stored in their
registers' widths (R10). -/
def Obligations.PackAccepted : Prop :=
  ∀ (s : State) (b l : Bool), s.phase = .idle →
    exec (.pack b l) s = .next
      { s with
        bpk :=
          if s.bpk.bitNum.toNat + 1 = 8 then
            ⟨s.bpk.sum ^^^ BitVec.ofNat 8 (2 * s.bpk.byteAcc.toNat + b.toNat), 0, 0⟩
          else if l = true then
            ⟨s.bpk.sum ^^^
              BitVec.ofNat 8 ((2 * s.bpk.byteAcc.toNat + b.toNat) * 2 ^ (8 - (s.bpk.bitNum.toNat + 1))), 0, 0⟩
          else
            ⟨s.bpk.sum, BitVec.ofNat 8 (2 * s.bpk.byteAcc.toNat + b.toNat), BitVec.ofNat 3 (s.bpk.bitNum.toNat + 1)⟩ }

/-- R193: an accepted CLEAR sets sum, byte_acc and bit_num to 0, discarding a partial byte; nothing else changes; while
busy it is rejected with ERR. -/
def Obligations.ClearAcceptedOrRejected : Prop :=
  ∀ s : State,
    (s.phase = .idle → exec .clear s = .next { s with bpk := ⟨0, 0, 0⟩ }) ∧
    (s.phase ≠ .idle → exec .clear s = .next { s with err := true, ecause := .whileBusy })

/-- A RUN, TEST, PACK or CLEAR while busy sets ERR with ECAUSE = 10, is dropped, and changes nothing else (R243, R296). -/
def Obligations.BusyRejectsCommands : Prop :=
  ∀ (s : State) (i : Instr), i ≠ .nop → s.phase ≠ .idle →
    exec i s = .next { s with err := true, ecause := .whileBusy }

/-- The frame of the commands: what each leaves unchanged, accepted or rejected. -/
def Obligations.CommandFrame : Prop :=
  ∀ (i : Instr) (s t : State), exec i s = .next t →
    (t.size = s.size ∧ t.cr = s.cr ∧ t.ci = s.ci ∧ t.esc = s.esc ∧ t.count = s.count ∧ t.nf = s.nf ∧
      t.events = s.events ∧ t.responses = s.responses ∧ t.draws = s.draws) ∧
    (i ≠ .run → t.x = s.x ∧ t.y = s.y) ∧
    (i ≠ .test → t.etu = s.etu) ∧
    (i ≠ .run → i ≠ .test → t.phase = s.phase ∧ t.done = s.done) ∧
    (i = .nop ∨ i = .test → t.bpk = s.bpk) ∧
    (i = .nop ∨ s.phase = .idle → t.err = s.err ∧ t.ecause = s.ecause) ∧
    (s.phase ≠ .idle → t.phase = s.phase ∧ t.done = s.done ∧ t.bpk = s.bpk ∧ t.etu = s.etu ∧ t.x = s.x ∧ t.y = s.y)

/-! ## Host accesses -/

/-- R241, R247 and R248: a read gives one response and changes no state (the response record and the draw index are the
model's, log 4 and 7), and so does a step that takes that read; its bits are the register's, written out here as numbers,
on every bit but the drawn ones, and no bit is drawn while BUSY = 0. -/
def Obligations.ReadsReturnTheRegister : Prop :=
  ∀ (s : State) (w : Index), ∃ value : Word,
    (s.hostRead w).responses = s.responses ++ [value] ∧
    (∀ rest, step { s with events := .access (.read w) :: rest } =
      .next { s with
        events := rest, responses := s.responses ++ [value], draws := (s.hostRead w).draws }) ∧
    { s.hostRead w with responses := s.responses, draws := s.draws } = s ∧
    ∀ (exact drawn : Nat),
      exact =
        (if w.toNat = 1 then
          64 * (match s.ecause with | .none => 0 | .illegalWord => 1 | .whileBusy => 2)
            + 16 * (match s.phase with | .idle => 0 | .tIter => 1 | .rStart => 2 | .rIter => 2 | .rEnd => 2)
            + 8 * s.nf.toNat + 4 * s.err.toNat
            + 2 * s.done.toNat + (if s.phase = .idle then 0 else 1)
        else if w.toNat = 2 then s.bpk.sum.toNat
        else if w.toNat = 3 then 256 * s.bpk.bitNum.toNat + s.bpk.byteAcc.toNat
        else if w.toNat = 4 then s.cr.toNat % 2 ^ 32
        else if w.toNat = 5 then s.cr.toNat / 2 ^ 32
        else if w.toNat = 6 then s.ci.toNat % 2 ^ 32
        else if w.toNat = 7 then s.ci.toNat / 2 ^ 32
        else if w.toNat = 8 then 256 * s.count.toNat + s.esc.toNat
        else if w.toNat = 9 then 65536 * s.y.toNat + s.x.toNat
        else if w.toNat = 10 then 65536 * 50 + s.size.toNat
        else if w.toNat = 11 then 0x4D420007
        else 0) →
      drawn =
        (if s.phase = .idle then 0
        else if s.phase = .tIter then
          (if w.toNat = 1 then 0x8 else if w.toNat = 8 then 0x3F01 else 0)
        else
          (if w.toNat = 1 then 0x8 else if w.toNat = 2 then 0xFF else if w.toNat = 3 then 0x7FF
          else if w.toNat = 8 then 0x3F01 else if w.toNat = 9 then 0xFFFFFFFF else 0)) →
      value &&& ~~~(BitVec.ofNat 32 drawn) = BitVec.ofNat 32 exact &&& ~~~(BitVec.ofNat 32 drawn)

/-- R244: a write of v to STATUS clears DONE, ERR with ECAUSE, and NF where v has a 1 in bits 1, 2, 3; every other bit
of v is ignored and nothing else changes. -/
def Obligations.StatusWriteOneToClear : Prop :=
  ∀ (s : State) (v : Word),
    hostWrite 1 v s = .next
      { s with
        done := if v.getLsbD 1 = true then false else s.done
        err := if v.getLsbD 2 = true then false else s.err
        ecause := if v.getLsbD 2 = true then .none else s.ecause
        nf := if v.getLsbD 3 = true then false else s.nf }

/-- R245: a write of an operand word replaces that half, as a number, and changes nothing else, busy or not. -/
def Obligations.OperandWritesReplaceOneHalf : Prop :=
  ∀ (s : State) (v : Word),
    (∃ p : F64, hostWrite 4 v s = .next { s with cr := p } ∧ p.toNat = s.cr.toNat / 2 ^ 32 * 2 ^ 32 + v.toNat) ∧
    (∃ p : F64, hostWrite 5 v s = .next { s with cr := p } ∧ p.toNat = v.toNat * 2 ^ 32 + s.cr.toNat % 2 ^ 32) ∧
    (∃ p : F64, hostWrite 6 v s = .next { s with ci := p } ∧ p.toNat = s.ci.toNat / 2 ^ 32 * 2 ^ 32 + v.toNat) ∧
    (∃ p : F64, hostWrite 7 v s = .next { s with ci := p } ∧ p.toNat = v.toNat * 2 ^ 32 + s.ci.toNat % 2 ^ 32)

/-- R246: a write to SUM, PACKST, ERES, POS, CFG, ID or a reserved word changes nothing. -/
def Obligations.OtherWritesIgnored : Prop :=
  ∀ (s : State) (w : Index) (v : Word),
    w.toNat ∈ [2, 3, 8, 9, 10, 11, 12, 13, 14, 15] → hostWrite w v s = .next s

/-- R80: each read gets exactly one response, the value read from the register at its word index (which
ReadsReturnTheRegister writes out), in the order of the accesses, and no other event gives one. -/
def Obligations.OneResponsePerRead : Prop :=
  ∀ s t : State, step s = .next t →
    (∀ (w : Index) (rest : List Event), s.events = .access (.read w) :: rest →
      t.responses = s.responses ++ [s.readValue (regAt w)]) ∧
    ((∀ (w : Index) (rest : List Event), s.events ≠ .access (.read w) :: rest) → t.responses = s.responses)

/-- The model's choice of how the order of events (R73, R240) stands in State: each step takes exactly the first event
of the list, and none where none is waiting (log 2, 3). No rule of the spec speaks of such a list. -/
def Obligations.StepTakesOneEvent : Prop :=
  ∀ s t : State, step s = .next t → t.events = s.events.tail

/-- While the engine has work, a host access leaves everything of the engine as it is: phase, position, packer, ETU
registers and ERES (R69, R73, R245, R296, R298). -/
def Obligations.BusyHostAccessLeavesTheEngine : Prop :=
  ∀ (s : State) (a : Access), s.phase ≠ .idle →
    ∃ t, hostAccess a s = .next t ∧ t.phase = s.phase ∧ t.x = s.x ∧ t.y = s.y ∧ t.bpk = s.bpk ∧ t.etu = s.etu ∧
      t.esc = s.esc ∧ t.count = s.count ∧ t.size = s.size

/-! ## Reset -/

/-- R291: a reset event sets every piece of state, whatever the state was; SIZE is a constant of the build. Only what
the spec gives a reset value is stated: not the model's own fields (log 7, 21), nor the escape flag of the point
(log 8), which is left as the t that the step gives. -/
def Obligations.ResetSetsEverything : Prop :=
  ∀ (s : State) (rest : List Event), s.events = .reset :: rest →
    ∃ t, step s = .next t ∧ t.statusWord = 0 ∧ t.doneO = false ∧
      t = { size := s.size, phase := .idle, done := false, err := false, nf := false, ecause := .none,
            bpk := ⟨0, 0, 0⟩, cr := 0, ci := 0, esc := false, count := 0, x := 0, y := 0,
            etu := ⟨0, 0, 0, 0, 0, 0, 0, t.etu.escape⟩, events := t.events, responses := t.responses,
            draws := t.draws }

/-- R294: what every word reads after a reset event, in every build, also as two steps, and CFG in the product build. -/
def Obligations.ReadsAfterReset : Prop :=
  (∀ (s : State) (w : Index), (s.resetEvent.hostRead w).responses = s.responses ++
    [if w.toNat = 10 then BitVec.ofNat 32 (65536 * 0x32 + s.size.toNat)
     else if w.toNat = 11 then 0x4D420007#32 else 0#32]) ∧
  (∀ (s : State) (w : Index) (rest : List Event), s.events = .reset :: .access (.read w) :: rest →
    ∃ t, Sys2Proof.core.run 2 s = .next t ∧ t.responses = s.responses ++
      [if w.toNat = 10 then BitVec.ofNat 32 (65536 * 0x32 + s.size.toNat)
       else if w.toNat = 11 then 0x4D420007#32 else 0#32]) ∧
  (State.reset.hostRead 10).responses = [0x003201F4#32]

/-! ## STATUS -/

/-- R25, R26, R45, R261: the fields of STATUS in every state, as numbers: BUSY is 1 exactly while the phase is not
IDLE; DONE, ERR and NF; MODE is 0 in IDLE, 1 in T_ITER and 2 in the three phases of a RUN; ECAUSE is 0 for no recorded
rejection, 1 for an illegal word and 2 for a command while busy; bits 31:8 are 0; so MODE and ECAUSE are never 11. -/
def Obligations.StatusFieldRanges : Prop :=
  ∀ s : State,
    (s.statusWord.getLsbD 0 = true ↔ s.phase ≠ .idle) ∧ s.statusWord.getLsbD 1 = s.done ∧
    s.statusWord.getLsbD 2 = s.err ∧ s.statusWord.getLsbD 3 = s.nf ∧
    (s.phase = .idle → s.statusWord.toNat / 16 % 4 = 0) ∧ (s.phase = .tIter → s.statusWord.toNat / 16 % 4 = 1) ∧
    (s.phase = .rStart ∨ s.phase = .rIter ∨ s.phase = .rEnd → s.statusWord.toNat / 16 % 4 = 2) ∧
    (s.ecause = .none → s.statusWord.toNat / 64 % 4 = 0) ∧ (s.ecause = .illegalWord → s.statusWord.toNat / 64 % 4 = 1) ∧
    (s.ecause = .whileBusy → s.statusWord.toNat / 64 % 4 = 2) ∧
    s.statusWord.extractLsb' 4 2 ≠ 3#2 ∧ s.statusWord.extractLsb' 6 2 ≠ 3#2 ∧ s.statusWord.extractLsb' 8 24 = 0#24

/-- R27: DONE rises only at the engine step that finishes a TEST or a RUN, and falls only at an accepted TEST or RUN, a
write of 1 to bit 1 of STATUS, or reset; done_o mirrors it (R264). -/
def Obligations.WhoChangesDone : Prop :=
  ∀ s t : State, step s = .next t →
    (s.done = false → t.done = true →
      s.EngineTurn ∧ (s.phase = .tIter ∨ s.phase = .rEnd) ∧ t.phase = .idle) ∧
    (s.done = true → t.done = false →
      (∃ v rest, s.events = .access (.write 0 v) :: rest ∧ s.phase = .idle ∧
        (decode v = .command .run ∨ decode v = .command .test)) ∨
      (∃ v rest, s.events = .access (.write 1 v) :: rest ∧ v.getLsbD 1 = true) ∨
      (∃ rest, s.events = .reset :: rest)) ∧
    t.doneO = t.done

/-- R28: ERR rises only at a rejected CTRL write and falls only at a write of 1 to bit 2 of STATUS or at reset; nothing
the engine does sets it. -/
def Obligations.WhoChangesErr : Prop :=
  ∀ s t : State, step s = .next t →
    (s.err = false → t.err = true →
      ∃ v rest, s.events = .access (.write 0 v) :: rest ∧
        ((∃ why, decode v = .illegal why) ∨ (s.phase ≠ .idle ∧ ∃ i, i ≠ .nop ∧ decode v = .command i))) ∧
    (s.err = true → t.err = false →
      (∃ v rest, s.events = .access (.write 1 v) :: rest ∧ v.getLsbD 2 = true) ∨ (∃ rest, s.events = .reset :: rest))

/-- R29 and R156: NF rises only at an engine step that performs an ITER and reads or produces a value that is not
finite, and falls only at a write of 1 to bit 3 of STATUS or at reset. -/
def Obligations.WhoChangesNf : Prop :=
  ∀ s t : State, step s = .next t →
    (s.nf = false → t.nf = true →
      s.EngineTurn ∧ (s.phase = .tIter ∨ s.phase = .rIter) ∧ s.etu.nonFinite s.draws = true) ∧
    (s.nf = true → t.nf = false →
      (∃ v rest, s.events = .access (.write 1 v) :: rest ∧ v.getLsbD 3 = true) ∨ (∃ rest, s.events = .reset :: rest))

/-! ## Who changes what -/

/-- R32 and R33: only host writes of their words, and reset, change CR and CI; the engine never does. -/
def Obligations.WhoChangesTheOperands : Prop :=
  ∀ s t : State, step s = .next t →
    (t.cr ≠ s.cr → (∃ w v rest, s.events = .access (.write w v) :: rest ∧ (w = 4 ∨ w = 5)) ∨
      (∃ rest, s.events = .reset :: rest)) ∧
    (t.ci ≠ s.ci → (∃ w v rest, s.events = .access (.write w v) :: rest ∧ (w = 6 ∨ w = 7)) ∨
      (∃ rest, s.events = .reset :: rest))

/-- R40 and R180: only PACK_BIT (in a PACK or an R_END step), BPK_CLEAR (in an accepted RUN or CLEAR) and reset change
the packer. -/
def Obligations.WhoChangesThePacker : Prop :=
  ∀ s t : State, step s = .next t → t.bpk ≠ s.bpk →
    (s.EngineTurn ∧ s.phase = .rEnd ∧ t.bpk = s.bpk.packBit s.esc s.lastColumn) ∨
    (∃ v rest, s.events = .access (.write 0 v) :: rest ∧ s.phase = .idle ∧
      (((decode v = .command .run ∨ decode v = .command .clear) ∧ t.bpk = ⟨0, 0, 0⟩) ∨
        ∃ b l, decode v = .command (.pack b l) ∧ t.bpk = s.bpk.packBit b l)) ∨
    (∃ rest, s.events = .reset :: rest)

/-- R41: only an accepted RUN, the R_END step and reset change the position. -/
def Obligations.WhoChangesThePosition : Prop :=
  ∀ s t : State, step s = .next t → (t.x ≠ s.x ∨ t.y ≠ s.y) →
    (s.EngineTurn ∧ s.phase = .rEnd) ∨
    (∃ v rest, s.events = .access (.write 0 v) :: rest ∧ s.phase = .idle ∧ decode v = .command .run) ∨
    (∃ rest, s.events = .reset :: rest)

/-- R34 and R155: only an engine step that finishes a point, and reset, change ERES, and then ESC and COUNT are
(escape, it), with it = 50 where ESC = 0. -/
def Obligations.WhoChangesEres : Prop :=
  ∀ s t : State, step s = .next t → (t.esc ≠ s.esc ∨ t.count ≠ s.count) →
    (s.EngineTurn ∧ (s.phase = .tIter ∨ s.phase = .rIter) ∧ t.etu = s.etu.iter s.draws ∧ t.esc = t.etu.escape ∧
      t.count = t.etu.it ∧ (t.esc = false → t.count.toNat = 50)) ∨
    (∃ rest, s.events = .reset :: rest)

/-- R36: SIZE is constant for a build: no event changes it. -/
def Obligations.SizeNeverChanges : Prop := ∀ s t : State, step s = .next t → t.size = s.size

/-- R278: while the phase is IDLE and no host access or reset comes, the block holds its state. The rules have no engine
step while IDLE; that an engine turn may stand in the list of events and then passes without effect, and that a step with
no event waiting answers the same state, is the model's choice (log 3). -/
def Obligations.IdleBlockHolds : Prop :=
  ∀ s : State, s.phase = .idle → (s.events = [] → step s = .next s) ∧
    (∀ rest, s.events = .engine :: rest → step s = .next { s with events := rest })

/-! ## The engine -/

/-- R152, R153 and R154: one ITER, with the source's order and grouping; the draws only choose NaN patterns (R131). -/
def Obligations.IterUpdatesInOrder : Prop :=
  ∀ (n : Nat) (u : Etu),
    ∃ t1 zr t2 t3 zi zrzr zizi q : F64,
      t1 = fsub n u.zrzr u.zizi ∧ zr = fadd (n + 1) t1 u.crq ∧ t2 = fmul (n + 2) 0x4000000000000000#64 zr ∧
      t3 = fmul (n + 3) t2 u.zi ∧ zi = fadd (n + 4) t3 u.ciq ∧ zrzr = fmul (n + 5) zr zr ∧
      zizi = fmul (n + 6) zi zi ∧ q = fadd (n + 7) zrzr zizi ∧
      u.iter n = { zr, zi, zrzr, zizi, crq := u.crq, ciq := u.ciq, it := u.it + 1,
                   escape := fgt q 0x4010000000000000#64 } ∧
      (u.nonFinite n = true ↔ ∃ p ∈ [u.crq, u.ciq, t1, zr, t2, t3, zi, zrzr, zizi, q], isfinite p = false)

/-- R159: the T_ITER step: one ITER and the finish test; a finished point writes ERES, clears BUSY and sets DONE. -/
def Obligations.TestStep : Prop :=
  ∀ s : State, s.phase = .tIter →
    s.engineStep = .next
      (if (s.etu.iter s.draws).escape = true then
        { s with etu := s.etu.iter s.draws, nf := s.nf || s.etu.nonFinite s.draws, draws := s.draws + 8,
                 esc := true, count := s.etu.it + 1, phase := .idle, done := true }
      else if (s.etu.it + 1).toNat = 50 then
        { s with etu := s.etu.iter s.draws, nf := s.nf || s.etu.nonFinite s.draws, draws := s.draws + 8,
                 esc := false, count := 50, phase := .idle, done := true }
      else
        { s with etu := s.etu.iter s.draws, nf := s.nf || s.etu.nonFinite s.draws, draws := s.draws + 8 })

/-- R222: the R_ITER step: one ITER and the finish test; a finished point writes ERES and enters R_END. -/
def Obligations.RunIterationStep : Prop :=
  ∀ s : State, s.phase = .rIter →
    s.engineStep = .next
      (if (s.etu.iter s.draws).escape = true then
        { s with etu := s.etu.iter s.draws, nf := s.nf || s.etu.nonFinite s.draws, draws := s.draws + 8,
                 esc := true, count := s.etu.it + 1, phase := .rEnd }
      else if (s.etu.it + 1).toNat = 50 then
        { s with etu := s.etu.iter s.draws, nf := s.nf || s.etu.nonFinite s.draws, draws := s.draws + 8,
                 esc := false, count := 50, phase := .rEnd }
      else
        { s with etu := s.etu.iter s.draws, nf := s.nf || s.etu.nonFinite s.draws, draws := s.draws + 8 })

/-- R210, R211 and R221: on the grid the R_START step starts the point at coord_r(x), coord_i(y), where coord(n) is the
rounded quotient 2n/SIZE less the constant; nothing else changes but the phase. The quotient's exact value is 2n/SIZE,
that is 2n * 2^1074 / SIZE in units of 2^-1074. -/
def Obligations.StartStepTakesTheCoordinates : Prop :=
  ∀ s : State, s.phase = .rStart → s.x.toNat < s.size.toNat → s.y.toNat < s.size.toNat →
    s.engineStep = .next
      { s with
        phase := .rIter
        etu :=
          ⟨0, 0, 0, 0,
            fsub 0 (round ((2 * s.x.toNat * oneUnits : Nat) : Int) s.size.toNat false) 0x3FF8000000000000#64,
            fsub 0 (round ((2 * s.y.toNat * oneUnits : Nat) : Int) s.size.toNat false) 0x3FF0000000000000#64,
            0, false⟩ }

/-- R223: the R_END step: pack ERES.ESC, with `last` in the last column; then the next column, or the first of the next
row; after the last row IDLE and DONE, else R_START. y is compared after it is advanced. -/
def Obligations.EndStepPacksAndAdvances : Prop :=
  ∀ s : State, s.phase = .rEnd → s.size ≠ 0 → s.y.toNat < s.size.toNat →
    s.engineStep = .next
      (if s.x.toNat = s.size.toNat - 1 then
        if s.y.toNat + 1 = s.size.toNat then
          { s with bpk := s.bpk.packBit s.esc true, x := 0, y := s.size, phase := .idle, done := true }
        else
          { s with bpk := s.bpk.packBit s.esc true, x := 0, y := s.y + 1, phase := .rStart }
      else
        { s with bpk := s.bpk.packBit s.esc false, x := s.x + 1, phase := .rStart })

/-- R266, first case: a W1C write of DONE ordered just before the finishing engine step leaves DONE = 1; ordered just
after, it leaves DONE = 0. -/
def Obligations.DoneRaceDependsOnOrder : Prop :=
  ∀ (s t : State) (v : Word), v.getLsbD 1 = true → s.phase ≠ .idle → s.engineStep = .next t → t.phase = .idle →
    (∃ s' t', hostWrite 1 v s = .next s' ∧ s'.engineStep = .next t' ∧ t'.phase = .idle ∧ t'.done = true) ∧
    (∃ t', hostWrite 1 v t = .next t' ∧ t'.done = false)

/-! ## Invariants -/

/-- The state after reset meets the invariants (and so the invariants can be met). -/
def Obligations.InvariantsHoldAtReset : Prop := State.reset.Inv

/-- R44, with the further facts of State.Inv: every step from a state that meets the invariants gives one that meets
them. -/
def Obligations.EveryStepKeepsTheInvariants : Prop :=
  ∀ s t : State, s.Inv → step s = .next t → t.Inv

/-- From a state that meets the invariants every step has a next state: no refusal is ever reached. -/
def Obligations.NoStopFromTheInvariants : Prop := ∀ s : State, s.Inv → ∃ t, step s = .next t

/-- R303 and R225: from any state that meets the invariants the engine, left alone, reaches IDLE within 52 * SIZE^2
steps. -/
def Obligations.EngineReachesIdle : Prop :=
  ∀ s : State, s.Inv →
    ∃ n t, n ≤ 52 * (s.size.toNat * s.size.toNat) ∧ s.engineSteps n = .next t ∧ t.phase = .idle

/-! ## Whole commands -/

/-- R157 and R159: an accepted TEST takes exactly `count` engine steps, 1 to 50, and ends IDLE with DONE, with ERES and
NF as `escape_test(CR, CI)` says and with the packer, the position, ERR, CR and CI as they were. -/
def Obligations.TestComputesEscapeTest : Prop :=
  ∀ s : State, s.phase = .idle →
    ∃ t, s.startTest.engineSteps (escapeTest s.draws s.cr s.ci).count.toNat = .next t ∧
      exec .test s = .next s.startTest ∧
      1 ≤ (escapeTest s.draws s.cr s.ci).count.toNat ∧ (escapeTest s.draws s.cr s.ci).count.toNat ≤ 50 ∧
      t = { s with
            phase := .idle, done := true
            esc := (escapeTest s.draws s.cr s.ci).esc
            count := (escapeTest s.draws s.cr s.ci).count
            nf := s.nf || (escapeTest s.draws s.cr s.ci).nf
            etu := t.etu, draws := t.draws } ∧
      (∀ m, m < (escapeTest s.draws s.cr s.ci).count.toNat →
        ∃ u, s.startTest.engineSteps m = .next u ∧ u.phase = .tIter)

/-- R131 and R157: the result of escape_test does not depend on the NaN patterns drawn. -/
def Obligations.EscapeTestIgnoresNaNDraws : Prop :=
  ∀ (n m : Nat) (cr ci : F64), escapeTest n cr ci = escapeTest m cr ci

/-- R218, R224 and R225: a RUN accepted in any idle state of any build takes exactly `runSteps(SIZE)` engine steps, at
most 52 * SIZE^2 (it is busy after any smaller number), and leaves SUM = checksum(SIZE), an empty packer,
POS = (0, SIZE), ERES of the last point, DONE, and ERR, ECAUSE, CR and CI as they were. -/
def Obligations.RunComputesChecksum : Prop :=
  ∀ s : State, s.phase = .idle → s.size ≠ 0 →
    ∃ t r, exec .run s = .next s.startRun ∧ runSteps s.size.toNat ≤ 52 * (s.size.toNat * s.size.toNat) ∧
      s.startRun.engineSteps (runSteps s.size.toNat) = .next t ∧
      t.phase = .idle ∧ t.done = true ∧ t.bpk = ⟨checksum s.size.toNat, 0, 0⟩ ∧ t.x = 0 ∧ t.y = s.size ∧
      gridPoint s.size.toNat (s.size.toNat - 1) (s.size.toNat - 1) = some r ∧ t.esc = r.esc ∧ t.count = r.count ∧
      t.err = s.err ∧ t.ecause = s.ecause ∧ t.cr = s.cr ∧ t.ci = s.ci ∧ t.size = s.size ∧ t.events = s.events ∧
      t.responses = s.responses ∧
      (∀ m, m < runSteps s.size.toNat → ∃ u, s.startRun.engineSteps m = .next u ∧ u.phase ≠ .idle)

/-- R72, R73 and R302: however host accesses and engine turns interleave after a RUN is accepted, as long as no reset
comes, at the event that first brings the engine to IDLE the packer holds the checksum and the position is (0, SIZE). -/
def Obligations.RunIsExactUnderInterleaving : Prop :=
  ∀ (s t : State) (k : Nat), s.phase = .idle → s.size ≠ 0 → (∀ e ∈ s.events, e ≠ .reset) →
    (∀ j u, j < k → Sys2Proof.core.run j s.startRun = .next u → u.phase ≠ .idle) →
    Sys2Proof.core.run k s.startRun = .next t → t.phase = .idle →
    t.bpk = ⟨checksum s.size.toNat, 0, 0⟩ ∧ t.x = 0 ∧ t.y = s.size ∧ t.size = s.size

/-- R262 and R224: a RUN leaves NF as it was. -/
def Obligations.RunLeavesNf : Prop :=
  ∀ s t : State, s.phase = .idle → s.size ≠ 0 →
    s.startRun.engineSteps (runSteps s.size.toNat) = .next t → t.nf = s.nf

/-- R160: no iteration of a grid point of any build meets a value that is not finite. -/
def Obligations.GridPointsStayFinite : Prop :=
  ∀ size x y : Nat, x < size → y < size → size ≤ 65535 →
    ∃ r, gridPoint size x y = some r ∧ r.nf = false

/-! ## The packer and the checksum -/

/-- R189: every PACK_BIT with last = true leaves byte_acc = 0 and bit_num = 0. -/
def Obligations.RowEndEmptiesThePacker : Prop :=
  ∀ (b : Bool) (p : Bpk), (p.packBit b true).byteAcc = 0 ∧ (p.packBit b true).bitNum = 0

/-- R188: in a run of PACK_BIT steps that starts with an empty packer and ends with a flush, the j-th bit lands in bit
7 - j of the flushed byte, and the positions below the last bit are 0. -/
def Obligations.PackedBitsAreMsbFirst : Prop :=
  ∀ (sum : BitVec 8) (bits : List Bool) (b last : Bool), bits.length = 7 ∨ (bits.length < 7 ∧ last = true) →
    ∃ byte : BitVec 8,
      (bits.foldl (fun (p : Bpk) c => p.packBit c false) (⟨sum, 0, 0⟩ : Bpk)).packBit b last = ⟨sum ^^^ byte, 0, 0⟩ ∧
      ∀ j, j < 8 → byte.getLsbD (7 - j) = (bits ++ [b]).getD j false

/-- R191: SUM is the XOR over all rows y and byte positions j of byte(y, j), whose bit 7 - i is the flag of column
8j + i. -/
def Obligations.ChecksumClosedForm : Prop :=
  (∀ size : Nat, checksum size = foldRows size (List.range size)) ∧
  (∀ (size y j i : Nat), i < 8 → (rowByte size y j).getLsbD (7 - i) = escapeFlag size (8 * j + i) y)

/-- R190 and R276: the rows may be folded in any order. -/
def Obligations.RowOrderDoesNotMatter : Prop :=
  ∀ (size : Nat) (rows : List Nat), rows.Perm (List.range size) → foldRows size rows = checksum size

/-! ## The floating-point datapath -/

/-- R123: `round` is to nearest with ties to even. For the exact value r/d in units of 2^-1074: a finite result is
at least as near as every finite pattern, a tie goes to an even significand, the sign is that of r (or s for zero), and
the result is an infinity exactly from half a spacing below 2^1024 on. -/
def Obligations.RoundToNearestTiesToEven : Prop :=
  ∀ (r : Int) (d : Nat) (s : Bool), 0 < d →
    (isfinite (round r d s) = true →
      ∀ q : F64, isfinite q = true →
        (val (round r d s) * d - r).natAbs ≤ (val q * d - r).natAbs ∧
        ((val (round r d s) * d - r).natAbs = (val q * d - r).natAbs → val q ≠ val (round r d s) →
          fracOf (round r d s) % 2 = 0)) ∧
    signOf (round r d s) = (if r = 0 then s else decide (r < 0)) ∧
    (isfinite (round r d s) = false ↔ (2 ^ 54 - 1) * overflowUnits * d ≤ 2 ^ 54 * r.natAbs) ∧
    (isfinite (round r d s) = false → isInf (round r d s) = true)

/-- R99, R122, R130 and R123: the classes and the exact value of a pattern, in units of 2^-1074, from its bits as
numbers; and a finite value rounds to its own pattern, so no value binary64 holds is changed or flushed to zero. -/
def Obligations.RoundIsExactOnBinary64 : Prop :=
  (∀ p : F64, ∀ e t : Nat, e = p.toNat / 2 ^ 52 % 2 ^ 11 → t = p.toNat % 2 ^ 52 →
    expOf p = e ∧ fracOf p = t ∧ (signOf p = true ↔ 2 ^ 63 ≤ p.toNat) ∧
    (isfinite p = true ↔ e ≠ 0x7FF) ∧ (isNaN p = true ↔ e = 0x7FF ∧ t ≠ 0) ∧ (isInf p = true ↔ e = 0x7FF ∧ t = 0) ∧
    (isZero p = true ↔ e = 0 ∧ t = 0) ∧
    (e ≠ 0x7FF → val p = (if 2 ^ 63 ≤ p.toNat then -1 else 1) *
      ((if e = 0 then t else (2 ^ 52 + t) * 2 ^ (e - 1) : Nat) : Int))) ∧
  (∀ (p : F64) (d : Nat), isfinite p = true → 0 < d → round (val p * d) d (signOf p) = p)

/-- R133: doubling is exact below 2^1023 and gives an infinity from there on. -/
def Obligations.DoublingIsExact : Prop :=
  ∀ (n : Nat) (a : F64), isfinite a = true →
    (2 * mag a < overflowUnits → val (fmul n 0x4000000000000000#64 a) = 2 * val a ∧
      signOf (fmul n 0x4000000000000000#64 a) = signOf a) ∧
    (overflowUnits ≤ 2 * mag a → fmul n 0x4000000000000000#64 a = infOf (signOf a))

/-- R124, R125, R126, R127: the adder, the multiplier and the comparator on every pair of operands. On finite operands
the result is the exact one, rounded; then zeros, infinities and NaNs. -/
def Obligations.SpecialCases : Prop :=
  (∀ (n : Nat) (a b : F64),
    (isNaN a = true ∨ isNaN b = true → isNaN (fadd n a b) = true ∧ isNaN (fsub n a b) = true ∧
      isNaN (fmul n a b) = true ∧ fgt a b = false) ∧
    (isfinite a = true → isfinite b = true →
      (isZero a = true ∧ isZero b = true ∧ signOf a = signOf b → fadd n a b = a) ∧
      (¬ (isZero a = true ∧ isZero b = true ∧ signOf a = signOf b) → fadd n a b = round (val a + val b) 1 false) ∧
      (isZero a = true ∧ isZero b = true ∧ signOf a ≠ signOf b → fsub n a b = a) ∧
      (¬ (isZero a = true ∧ isZero b = true ∧ signOf a ≠ signOf b) → fsub n a b = round (val a - val b) 1 false) ∧
      fmul n a b = round (val a * val b) oneUnits (signOf a != signOf b) ∧
      (fgt a b = true ↔ val b < val a)) ∧
    (isInf a = true → isfinite b = true →
      fadd n a b = a ∧ fadd n b a = a ∧ fsub n a b = a ∧ fsub n b a = infOf (!signOf a) ∧
      fgt a b = !signOf a ∧ fgt b a = signOf a) ∧
    (isInf a = true → isInf b = true →
      (signOf a = signOf b → fadd n a b = a ∧ isNaN (fsub n a b) = true) ∧
      (signOf a ≠ signOf b → isNaN (fadd n a b) = true ∧ fsub n a b = a) ∧
      fgt a b = (!signOf a && signOf b)) ∧
    (isInf a = true → isZero b = true → isNaN (fmul n a b) = true ∧ isNaN (fmul n b a) = true) ∧
    (isInf a = true → isNaN b = false → isZero b = false →
      fmul n a b = infOf (signOf a != signOf b) ∧ fmul n b a = infOf (signOf a != signOf b)) ∧
    (isZero a = true → isfinite b = true →
      fmul n a b = zeroOf (signOf a != signOf b) ∧ fmul n b a = zeroOf (signOf a != signOf b)) ∧
    (isZero a = true → isZero b = true → fgt a b = false) ∧
    (isfinite a = true → fsub n a a = zeroOf false ∧ fadd n a (neg a) = zeroOf false ∧ fgt a a = false)) ∧
  (∀ n : Nat, fadd n (zeroOf true) (zeroOf true) = zeroOf true ∧ fadd n (zeroOf false) (zeroOf false) = zeroOf false ∧
    fsub n (zeroOf true) (zeroOf false) = zeroOf true ∧ fsub n (zeroOf false) (zeroOf false) = zeroOf false) ∧
  fgt (infOf false) 0x4010000000000000#64 = true ∧ fgt 0x4010000000000000#64 0x4010000000000000#64 = false ∧
  fgt 0x4010000000000001#64 0x4010000000000000#64 = true ∧ fgt (zeroOf true) (zeroOf false) = false

/-- R128: i2f is exact on 0..131070, and i2f(0) = +0; other operands never reach it and are refused (I12; log 9). -/
def Obligations.ConversionIsExact : Prop :=
  (∀ n : Nat, n ≤ 131070 →
    ∃ p, i2f n = some p ∧ isfinite p = true ∧ signOf p = false ∧ val p = (n * oneUnits : Nat)) ∧
  i2f 0 = some (zeroOf false) ∧ (∀ n : Nat, 131070 < n → i2f n = none)

/-- R213: every coordinate of every build is finite and never -0, with -1.5 <= coord_r < 0.5 and -1 <= coord_i < 1, and
is zero exactly where 4x = 3 SIZE or 2y = SIZE. -/
def Obligations.CoordinateRanges : Prop :=
  ∀ size n : Nat, n < size → size ≤ 65535 →
    ∃ cr ci, coordR size n = some cr ∧ coordI size n = some ci ∧
      isfinite cr = true ∧ isfinite ci = true ∧ cr ≠ 0x8000000000000000#64 ∧ ci ≠ 0x8000000000000000#64 ∧
      val 0xBFF8000000000000#64 ≤ val cr ∧ val cr < val 0x3FE0000000000000#64 ∧
      val 0xBFF0000000000000#64 ≤ val ci ∧ val ci < val 0x3FF0000000000000#64 ∧
      (val cr = 0 ↔ 4 * n = 3 * size) ∧ (val ci = 0 ↔ 2 * n = size)

/-! ## The host's side -/

/-- R61: a byte-addressed platform reaches word w at byte offset 4w from its base, and a bridge forwards nothing that is
misaligned, of another width, or outside the window (R66). -/
def Obligations.PlatformWordIndex : Prop :=
  (∀ (base : Nat) (w : Index), wordIndexAt base (base + 4 * w.toNat) 4 = some w) ∧
  (∀ (base addr bytes : Nat) (w : Index), wordIndexAt base addr bytes = some w →
    bytes = 4 ∧ addr = base + 4 * w.toNat)

/-- R102 and R103: the accesses of every statement. RD and WR are one access each; the command pseudo-instructions
write the words that decode to their commands; SETCR and SETCI leave the whole operand in CR and CI, whatever the block is
doing; W1C is a STATUS write; POLL is a STATUS read repeated while bit 0 of the value read is 1, and that bit is BUSY;
TESTPT is SETCR, SETCI, TEST, POLL, and on an idle block starts the test of its point. That a POLL carries its number of
repeats, and that pollComplete says which number is right, is the model's choice (log 14). -/
def Obligations.PseudoInstructionsExpand : Prop :=
  (∀ (w : Index) (v : Word) (e : Option Word), (Stmt.rd w e).expand.map Access.triple = [(false, w, none)] ∧
    (Stmt.wr w v).expand.map Access.triple = [(true, w, some v)]) ∧
  (Stmt.nop.expand = [.write 0 (encode .nop)] ∧ Stmt.run.expand = [.write 0 (encode .run)] ∧
    Stmt.test.expand = [.write 0 (encode .test)] ∧ Stmt.clear.expand = [.write 0 (encode .clear)] ∧
    ∀ b l, (Stmt.pack b l).expand = [.write 0 (encode (.pack b l))]) ∧
  (∀ (s : State) (f : F64), s.events = scriptEvents [.setCr f] →
    Sys2Proof.core.run 2 s = .next { s with events := [], cr := f }) ∧
  (∀ (s : State) (f : F64), s.events = scriptEvents [.setCi f] →
    Sys2Proof.core.run 2 s = .next { s with events := [], ci := f }) ∧
  (∀ (s : State) (m : Word), s.events = scriptEvents [.w1c m] →
    Sys2Proof.core.run 1 s = hostWrite 1 m { s with events := [] }) ∧
  (∀ again : Nat, (Stmt.poll again).expand.length = again + 1 ∧ ∀ a ∈ (Stmt.poll again).expand, a = .read 1) ∧
  (∀ values : List Word, pollComplete values = true ↔
    ∃ (before : List Word) (last : Word), values = before ++ [last] ∧ last.getLsbD 0 = false ∧
      ∀ v ∈ before, v.getLsbD 0 = true) ∧
  (∀ s : State, pollGoesOn (s.readValue (regAt 1)) = true ↔ s.phase ≠ .idle) ∧
  (∀ (a b : F64) (again : Nat), (Stmt.testPt a b again).expand =
    (Stmt.setCr a).expand ++ (Stmt.setCi b).expand ++ Stmt.test.expand ++ (Stmt.poll again).expand) ∧
  (∀ (s : State) (a b : F64) (again : Nat), s.phase = .idle → s.events = scriptEvents [.testPt a b again] →
    Sys2Proof.core.run 5 s = .next
      { s with
        events := scriptEvents [.poll again], cr := a, ci := b, etu := ⟨0, 0, 0, 0, a, b, 0, false⟩, done := false,
        phase := .tIter })
end

