-- ==== Sys2Proof/Laws/State.lean ====
section
/-!
SUPPORT. The small lemmas of State: for each update of the machine, what every field reads as afterwards. No later
proof needs to unfold a record update.
-/

namespace Sys2Proof.Machine

/-! ### Recording a rejection -/

@[simp] theorem reject_size (c : Cause) (s : State) : (s.reject c).size = s.size := rfl
@[simp] theorem reject_phase (c : Cause) (s : State) : (s.reject c).phase = s.phase := rfl
@[simp] theorem reject_done (c : Cause) (s : State) : (s.reject c).done = s.done := rfl
@[simp] theorem reject_err (c : Cause) (s : State) : (s.reject c).err = true := rfl
@[simp] theorem reject_nf (c : Cause) (s : State) : (s.reject c).nf = s.nf := rfl
@[simp] theorem reject_ecause (c : Cause) (s : State) : (s.reject c).ecause = c := rfl
@[simp] theorem reject_bpk (c : Cause) (s : State) : (s.reject c).bpk = s.bpk := rfl
@[simp] theorem reject_cr (c : Cause) (s : State) : (s.reject c).cr = s.cr := rfl
@[simp] theorem reject_ci (c : Cause) (s : State) : (s.reject c).ci = s.ci := rfl
@[simp] theorem reject_esc (c : Cause) (s : State) : (s.reject c).esc = s.esc := rfl
@[simp] theorem reject_count (c : Cause) (s : State) : (s.reject c).count = s.count := rfl
@[simp] theorem reject_x (c : Cause) (s : State) : (s.reject c).x = s.x := rfl
@[simp] theorem reject_y (c : Cause) (s : State) : (s.reject c).y = s.y := rfl
@[simp] theorem reject_etu (c : Cause) (s : State) : (s.reject c).etu = s.etu := rfl
@[simp] theorem reject_events (c : Cause) (s : State) : (s.reject c).events = s.events := rfl
@[simp] theorem reject_responses (c : Cause) (s : State) : (s.reject c).responses = s.responses := rfl
@[simp] theorem reject_draws (c : Cause) (s : State) : (s.reject c).draws = s.draws := rfl

/-! ### Writing STATUS -/

@[simp] theorem writeStatus_size (v : Word) (s : State) : (s.writeStatus v).size = s.size := rfl
@[simp] theorem writeStatus_phase (v : Word) (s : State) : (s.writeStatus v).phase = s.phase := rfl
@[simp] theorem writeStatus_done (v : Word) (s : State) : (s.writeStatus v).done = (s.done && !v.getLsbD 1) := rfl
@[simp] theorem writeStatus_err (v : Word) (s : State) : (s.writeStatus v).err = (s.err && !v.getLsbD 2) := rfl
@[simp] theorem writeStatus_nf (v : Word) (s : State) : (s.writeStatus v).nf = (s.nf && !v.getLsbD 3) := rfl
@[simp] theorem writeStatus_ecause (v : Word) (s : State) : (s.writeStatus v).ecause = (if v.getLsbD 2 then .none else s.ecause) := rfl
@[simp] theorem writeStatus_bpk (v : Word) (s : State) : (s.writeStatus v).bpk = s.bpk := rfl
@[simp] theorem writeStatus_cr (v : Word) (s : State) : (s.writeStatus v).cr = s.cr := rfl
@[simp] theorem writeStatus_ci (v : Word) (s : State) : (s.writeStatus v).ci = s.ci := rfl
@[simp] theorem writeStatus_esc (v : Word) (s : State) : (s.writeStatus v).esc = s.esc := rfl
@[simp] theorem writeStatus_count (v : Word) (s : State) : (s.writeStatus v).count = s.count := rfl
@[simp] theorem writeStatus_x (v : Word) (s : State) : (s.writeStatus v).x = s.x := rfl
@[simp] theorem writeStatus_y (v : Word) (s : State) : (s.writeStatus v).y = s.y := rfl
@[simp] theorem writeStatus_etu (v : Word) (s : State) : (s.writeStatus v).etu = s.etu := rfl
@[simp] theorem writeStatus_events (v : Word) (s : State) : (s.writeStatus v).events = s.events := rfl
@[simp] theorem writeStatus_responses (v : Word) (s : State) : (s.writeStatus v).responses = s.responses := rfl
@[simp] theorem writeStatus_draws (v : Word) (s : State) : (s.writeStatus v).draws = s.draws := rfl

/-! ### BPK_CLEAR -/

@[simp] theorem bpkClear_size (s : State) : (s.bpkClear).size = s.size := rfl
@[simp] theorem bpkClear_phase (s : State) : (s.bpkClear).phase = s.phase := rfl
@[simp] theorem bpkClear_done (s : State) : (s.bpkClear).done = s.done := rfl
@[simp] theorem bpkClear_err (s : State) : (s.bpkClear).err = s.err := rfl
@[simp] theorem bpkClear_nf (s : State) : (s.bpkClear).nf = s.nf := rfl
@[simp] theorem bpkClear_ecause (s : State) : (s.bpkClear).ecause = s.ecause := rfl
@[simp] theorem bpkClear_bpk (s : State) : (s.bpkClear).bpk = Bpk.zero := rfl
@[simp] theorem bpkClear_cr (s : State) : (s.bpkClear).cr = s.cr := rfl
@[simp] theorem bpkClear_ci (s : State) : (s.bpkClear).ci = s.ci := rfl
@[simp] theorem bpkClear_esc (s : State) : (s.bpkClear).esc = s.esc := rfl
@[simp] theorem bpkClear_count (s : State) : (s.bpkClear).count = s.count := rfl
@[simp] theorem bpkClear_x (s : State) : (s.bpkClear).x = s.x := rfl
@[simp] theorem bpkClear_y (s : State) : (s.bpkClear).y = s.y := rfl
@[simp] theorem bpkClear_etu (s : State) : (s.bpkClear).etu = s.etu := rfl
@[simp] theorem bpkClear_events (s : State) : (s.bpkClear).events = s.events := rfl
@[simp] theorem bpkClear_responses (s : State) : (s.bpkClear).responses = s.responses := rfl
@[simp] theorem bpkClear_draws (s : State) : (s.bpkClear).draws = s.draws := rfl

/-! ### Accepting a RUN -/

@[simp] theorem startRun_size (s : State) : (s.startRun).size = s.size := rfl
@[simp] theorem startRun_phase (s : State) : (s.startRun).phase = .rStart := rfl
@[simp] theorem startRun_done (s : State) : (s.startRun).done = false := rfl
@[simp] theorem startRun_err (s : State) : (s.startRun).err = s.err := rfl
@[simp] theorem startRun_nf (s : State) : (s.startRun).nf = s.nf := rfl
@[simp] theorem startRun_ecause (s : State) : (s.startRun).ecause = s.ecause := rfl
@[simp] theorem startRun_bpk (s : State) : (s.startRun).bpk = Bpk.zero := rfl
@[simp] theorem startRun_cr (s : State) : (s.startRun).cr = s.cr := rfl
@[simp] theorem startRun_ci (s : State) : (s.startRun).ci = s.ci := rfl
@[simp] theorem startRun_esc (s : State) : (s.startRun).esc = s.esc := rfl
@[simp] theorem startRun_count (s : State) : (s.startRun).count = s.count := rfl
@[simp] theorem startRun_x (s : State) : (s.startRun).x = 0 := rfl
@[simp] theorem startRun_y (s : State) : (s.startRun).y = 0 := rfl
@[simp] theorem startRun_etu (s : State) : (s.startRun).etu = s.etu := rfl
@[simp] theorem startRun_events (s : State) : (s.startRun).events = s.events := rfl
@[simp] theorem startRun_responses (s : State) : (s.startRun).responses = s.responses := rfl
@[simp] theorem startRun_draws (s : State) : (s.startRun).draws = s.draws := rfl

/-! ### Accepting a TEST -/

@[simp] theorem startTest_size (s : State) : (s.startTest).size = s.size := rfl
@[simp] theorem startTest_phase (s : State) : (s.startTest).phase = .tIter := rfl
@[simp] theorem startTest_done (s : State) : (s.startTest).done = false := rfl
@[simp] theorem startTest_err (s : State) : (s.startTest).err = s.err := rfl
@[simp] theorem startTest_nf (s : State) : (s.startTest).nf = s.nf := rfl
@[simp] theorem startTest_ecause (s : State) : (s.startTest).ecause = s.ecause := rfl
@[simp] theorem startTest_bpk (s : State) : (s.startTest).bpk = s.bpk := rfl
@[simp] theorem startTest_cr (s : State) : (s.startTest).cr = s.cr := rfl
@[simp] theorem startTest_ci (s : State) : (s.startTest).ci = s.ci := rfl
@[simp] theorem startTest_esc (s : State) : (s.startTest).esc = s.esc := rfl
@[simp] theorem startTest_count (s : State) : (s.startTest).count = s.count := rfl
@[simp] theorem startTest_x (s : State) : (s.startTest).x = s.x := rfl
@[simp] theorem startTest_y (s : State) : (s.startTest).y = s.y := rfl
@[simp] theorem startTest_etu (s : State) : (s.startTest).etu = Etu.pointStart s.cr s.ci := rfl
@[simp] theorem startTest_events (s : State) : (s.startTest).events = s.events := rfl
@[simp] theorem startTest_responses (s : State) : (s.startTest).responses = s.responses := rfl
@[simp] theorem startTest_draws (s : State) : (s.startTest).draws = s.draws := rfl

/-! ### The reset event -/

@[simp] theorem resetEvent_size (s : State) : (s.resetEvent).size = s.size := rfl
@[simp] theorem resetEvent_phase (s : State) : (s.resetEvent).phase = .idle := rfl
@[simp] theorem resetEvent_done (s : State) : (s.resetEvent).done = false := rfl
@[simp] theorem resetEvent_err (s : State) : (s.resetEvent).err = false := rfl
@[simp] theorem resetEvent_nf (s : State) : (s.resetEvent).nf = false := rfl
@[simp] theorem resetEvent_ecause (s : State) : (s.resetEvent).ecause = .none := rfl
@[simp] theorem resetEvent_bpk (s : State) : (s.resetEvent).bpk = Bpk.zero := rfl
@[simp] theorem resetEvent_cr (s : State) : (s.resetEvent).cr = 0 := rfl
@[simp] theorem resetEvent_ci (s : State) : (s.resetEvent).ci = 0 := rfl
@[simp] theorem resetEvent_esc (s : State) : (s.resetEvent).esc = false := rfl
@[simp] theorem resetEvent_count (s : State) : (s.resetEvent).count = 0 := rfl
@[simp] theorem resetEvent_x (s : State) : (s.resetEvent).x = 0 := rfl
@[simp] theorem resetEvent_y (s : State) : (s.resetEvent).y = 0 := rfl
@[simp] theorem resetEvent_etu (s : State) : (s.resetEvent).etu = Etu.zero := rfl
@[simp] theorem resetEvent_events (s : State) : (s.resetEvent).events = s.events := rfl
@[simp] theorem resetEvent_responses (s : State) : (s.resetEvent).responses = s.responses := rfl
@[simp] theorem resetEvent_draws (s : State) : (s.resetEvent).draws = s.draws := rfl

/-! ### A host read -/

@[simp] theorem hostRead_size (w : Index) (s : State) : (s.hostRead w).size = s.size := rfl
@[simp] theorem hostRead_phase (w : Index) (s : State) : (s.hostRead w).phase = s.phase := rfl
@[simp] theorem hostRead_done (w : Index) (s : State) : (s.hostRead w).done = s.done := rfl
@[simp] theorem hostRead_err (w : Index) (s : State) : (s.hostRead w).err = s.err := rfl
@[simp] theorem hostRead_nf (w : Index) (s : State) : (s.hostRead w).nf = s.nf := rfl
@[simp] theorem hostRead_ecause (w : Index) (s : State) : (s.hostRead w).ecause = s.ecause := rfl
@[simp] theorem hostRead_bpk (w : Index) (s : State) : (s.hostRead w).bpk = s.bpk := rfl
@[simp] theorem hostRead_cr (w : Index) (s : State) : (s.hostRead w).cr = s.cr := rfl
@[simp] theorem hostRead_ci (w : Index) (s : State) : (s.hostRead w).ci = s.ci := rfl
@[simp] theorem hostRead_esc (w : Index) (s : State) : (s.hostRead w).esc = s.esc := rfl
@[simp] theorem hostRead_count (w : Index) (s : State) : (s.hostRead w).count = s.count := rfl
@[simp] theorem hostRead_x (w : Index) (s : State) : (s.hostRead w).x = s.x := rfl
@[simp] theorem hostRead_y (w : Index) (s : State) : (s.hostRead w).y = s.y := rfl
@[simp] theorem hostRead_etu (w : Index) (s : State) : (s.hostRead w).etu = s.etu := rfl
@[simp] theorem hostRead_events (w : Index) (s : State) : (s.hostRead w).events = s.events := rfl
@[simp] theorem hostRead_responses (w : Index) (s : State) : (s.hostRead w).responses = s.responses ++ [s.readValue (regAt w)] := rfl
@[simp] theorem hostRead_draws (w : Index) (s : State) : (s.hostRead w).draws = (if drawnBits (modeBits s.phase) (regAt w) = 0 then s.draws else s.draws + 1) := rfl

/-! ### Presenting an access -/

@[simp] theorem present_size (a : Access) (s : State) : (s.present a).size = s.size := rfl
@[simp] theorem present_phase (a : Access) (s : State) : (s.present a).phase = s.phase := rfl
@[simp] theorem present_done (a : Access) (s : State) : (s.present a).done = s.done := rfl
@[simp] theorem present_err (a : Access) (s : State) : (s.present a).err = s.err := rfl
@[simp] theorem present_nf (a : Access) (s : State) : (s.present a).nf = s.nf := rfl
@[simp] theorem present_ecause (a : Access) (s : State) : (s.present a).ecause = s.ecause := rfl
@[simp] theorem present_bpk (a : Access) (s : State) : (s.present a).bpk = s.bpk := rfl
@[simp] theorem present_cr (a : Access) (s : State) : (s.present a).cr = s.cr := rfl
@[simp] theorem present_ci (a : Access) (s : State) : (s.present a).ci = s.ci := rfl
@[simp] theorem present_esc (a : Access) (s : State) : (s.present a).esc = s.esc := rfl
@[simp] theorem present_count (a : Access) (s : State) : (s.present a).count = s.count := rfl
@[simp] theorem present_x (a : Access) (s : State) : (s.present a).x = s.x := rfl
@[simp] theorem present_y (a : Access) (s : State) : (s.present a).y = s.y := rfl
@[simp] theorem present_etu (a : Access) (s : State) : (s.present a).etu = s.etu := rfl
@[simp] theorem present_events (a : Access) (s : State) : (s.present a).events = s.events ++ [.access a] := rfl
@[simp] theorem present_responses (a : Access) (s : State) : (s.present a).responses = s.responses := rfl
@[simp] theorem present_draws (a : Access) (s : State) : (s.present a).draws = s.draws := rfl

/-! ### Finishing a point -/

@[simp] theorem finishPoint_size (s : State) : (s.finishPoint).size = s.size := by
  unfold State.finishPoint; split_ifs <;> rfl
@[simp] theorem finishPoint_phase (s : State) : (s.finishPoint).phase = s.phase := by
  unfold State.finishPoint; split_ifs <;> rfl
@[simp] theorem finishPoint_done (s : State) : (s.finishPoint).done = s.done := by
  unfold State.finishPoint; split_ifs <;> rfl
@[simp] theorem finishPoint_err (s : State) : (s.finishPoint).err = s.err := by
  unfold State.finishPoint; split_ifs <;> rfl
@[simp] theorem finishPoint_nf (s : State) : (s.finishPoint).nf = s.nf := by
  unfold State.finishPoint; split_ifs <;> rfl
@[simp] theorem finishPoint_ecause (s : State) : (s.finishPoint).ecause = s.ecause := by
  unfold State.finishPoint; split_ifs <;> rfl
@[simp] theorem finishPoint_bpk (s : State) : (s.finishPoint).bpk = s.bpk := by
  unfold State.finishPoint; split_ifs <;> rfl
@[simp] theorem finishPoint_cr (s : State) : (s.finishPoint).cr = s.cr := by
  unfold State.finishPoint; split_ifs <;> rfl
@[simp] theorem finishPoint_ci (s : State) : (s.finishPoint).ci = s.ci := by
  unfold State.finishPoint; split_ifs <;> rfl
@[simp] theorem finishPoint_x (s : State) : (s.finishPoint).x = s.x := by
  unfold State.finishPoint; split_ifs <;> rfl
@[simp] theorem finishPoint_y (s : State) : (s.finishPoint).y = s.y := by
  unfold State.finishPoint; split_ifs <;> rfl
@[simp] theorem finishPoint_etu (s : State) : (s.finishPoint).etu = s.etu := by
  unfold State.finishPoint; split_ifs <;> rfl
@[simp] theorem finishPoint_events (s : State) : (s.finishPoint).events = s.events := by
  unfold State.finishPoint; split_ifs <;> rfl
@[simp] theorem finishPoint_responses (s : State) : (s.finishPoint).responses = s.responses := by
  unfold State.finishPoint; split_ifs <;> rfl
@[simp] theorem finishPoint_draws (s : State) : (s.finishPoint).draws = s.draws := by
  unfold State.finishPoint; split_ifs <;> rfl

/-! ### Advancing the position -/

@[simp] theorem advance_size (s : State) : (s.advance).size = s.size := by
  unfold State.advance; split_ifs <;> rfl
@[simp] theorem advance_phase (s : State) : (s.advance).phase = s.phase := by
  unfold State.advance; split_ifs <;> rfl
@[simp] theorem advance_done (s : State) : (s.advance).done = s.done := by
  unfold State.advance; split_ifs <;> rfl
@[simp] theorem advance_err (s : State) : (s.advance).err = s.err := by
  unfold State.advance; split_ifs <;> rfl
@[simp] theorem advance_nf (s : State) : (s.advance).nf = s.nf := by
  unfold State.advance; split_ifs <;> rfl
@[simp] theorem advance_ecause (s : State) : (s.advance).ecause = s.ecause := by
  unfold State.advance; split_ifs <;> rfl
@[simp] theorem advance_bpk (s : State) : (s.advance).bpk = s.bpk := by
  unfold State.advance; split_ifs <;> rfl
@[simp] theorem advance_cr (s : State) : (s.advance).cr = s.cr := by
  unfold State.advance; split_ifs <;> rfl
@[simp] theorem advance_ci (s : State) : (s.advance).ci = s.ci := by
  unfold State.advance; split_ifs <;> rfl
@[simp] theorem advance_esc (s : State) : (s.advance).esc = s.esc := by
  unfold State.advance; split_ifs <;> rfl
@[simp] theorem advance_count (s : State) : (s.advance).count = s.count := by
  unfold State.advance; split_ifs <;> rfl
@[simp] theorem advance_etu (s : State) : (s.advance).etu = s.etu := by
  unfold State.advance; split_ifs <;> rfl
@[simp] theorem advance_events (s : State) : (s.advance).events = s.events := by
  unfold State.advance; split_ifs <;> rfl
@[simp] theorem advance_responses (s : State) : (s.advance).responses = s.responses := by
  unfold State.advance; split_ifs <;> rfl
@[simp] theorem advance_draws (s : State) : (s.advance).draws = s.draws := by
  unfold State.advance; split_ifs <;> rfl

/-! ### One ITER -/

@[simp] theorem iterate_size (s : State) : s.iterate.size = s.size := by simp [State.iterate]
@[simp] theorem iterate_phase (s : State) : s.iterate.phase = s.phase := by simp [State.iterate]
@[simp] theorem iterate_done (s : State) : s.iterate.done = s.done := by simp [State.iterate]
@[simp] theorem iterate_err (s : State) : s.iterate.err = s.err := by simp [State.iterate]
@[simp] theorem iterate_nf (s : State) : s.iterate.nf = (s.nf || s.etu.nonFinite s.draws) := by simp [State.iterate]
@[simp] theorem iterate_ecause (s : State) : s.iterate.ecause = s.ecause := by simp [State.iterate]
@[simp] theorem iterate_bpk (s : State) : s.iterate.bpk = s.bpk := by simp [State.iterate]
@[simp] theorem iterate_cr (s : State) : s.iterate.cr = s.cr := by simp [State.iterate]
@[simp] theorem iterate_ci (s : State) : s.iterate.ci = s.ci := by simp [State.iterate]
@[simp] theorem iterate_x (s : State) : s.iterate.x = s.x := by simp [State.iterate]
@[simp] theorem iterate_y (s : State) : s.iterate.y = s.y := by simp [State.iterate]
@[simp] theorem iterate_etu (s : State) : s.iterate.etu = s.etu.iter s.draws := by simp [State.iterate]
@[simp] theorem iterate_events (s : State) : s.iterate.events = s.events := by simp [State.iterate]
@[simp] theorem iterate_responses (s : State) : s.iterate.responses = s.responses := by simp [State.iterate]
@[simp] theorem iterate_draws (s : State) : s.iterate.draws = s.draws + drawsPerIter := by simp [State.iterate]

/-! ### The ETU after POINT_START and after an ITER -/

@[simp] theorem pointStart_it (cr ci : F64) : (Etu.pointStart cr ci).it = 0 := rfl
@[simp] theorem pointStart_escape (cr ci : F64) : (Etu.pointStart cr ci).escape = false := rfl
@[simp] theorem pointStart_crq (cr ci : F64) : (Etu.pointStart cr ci).crq = cr := rfl
@[simp] theorem pointStart_ciq (cr ci : F64) : (Etu.pointStart cr ci).ciq = ci := rfl
@[simp] theorem iter_it (n : Nat) (u : Etu) : (u.iter n).it = u.it + 1 := rfl
@[simp] theorem iter_crq (n : Nat) (u : Etu) : (u.iter n).crq = u.crq := rfl
@[simp] theorem iter_ciq (n : Nat) (u : Etu) : (u.iter n).ciq = u.ciq := rfl

/-! ### BUSY -/

@[simp] theorem busy_eq_false (s : State) : s.busy = false ↔ s.phase = .idle := by simp [State.busy]
@[simp] theorem busy_eq_true (s : State) : s.busy = true ↔ s.phase ≠ .idle := by simp [State.busy]

end Sys2Proof.Machine
end

