-- ==== Sys2Proof/Laws/Fp.lean ====
section
/-!
SUPPORT. Lemmas of binary64 patterns and of `round`: the fields of an assembled pattern, magnitudes and their
patterns, and the bounds of a rounding (it does not cross a binary64 magnitude, and keeps one it meets).
-/

namespace Sys2Proof.Machine

/-! ## Fields of a pattern -/

theorem extract_exp (s : Bool) (e : BitVec 11) (t : BitVec 52) :
    (BitVec.ofBool s ++ e ++ t : BitVec (1+11+52)).extractLsb' 52 11 = e := by
  apply BitVec.eq_of_getLsbD_eq
  intro i hi
  rw [BitVec.getLsbD_extractLsb', BitVec.getLsbD_append, BitVec.getLsbD_append]
  simp [hi]
theorem extract_frac (s : Bool) (e : BitVec 11) (t : BitVec 52) :
    (BitVec.ofBool s ++ e ++ t : BitVec (1+11+52)).extractLsb' 0 52 = t := by
  apply BitVec.eq_of_getLsbD_eq
  intro i hi
  rw [BitVec.getLsbD_extractLsb', BitVec.getLsbD_append, BitVec.getLsbD_append]
  simp [hi]

@[simp] theorem expOf_assemble (s : Bool) (e t : Nat) : expOf (assemble s e t) = e % 2 ^ 11 := by
  simp only [expOf, assemble]
  rw [show (BitVec.ofBool s ++ BitVec.ofNat 11 e ++ BitVec.ofNat 52 t : F64) = (BitVec.ofBool s ++ BitVec.ofNat 11 e ++ BitVec.ofNat 52 t : BitVec (1+11+52)) from rfl, extract_exp, BitVec.toNat_ofNat]
@[simp] theorem fracOf_assemble (s : Bool) (e t : Nat) : fracOf (assemble s e t) = t % 2 ^ 52 := by
  simp only [fracOf, assemble]
  rw [extract_frac, BitVec.toNat_ofNat]
@[simp] theorem signOf_assemble (s : Bool) (e t : Nat) : signOf (assemble s e t) = s := by
  rw [signOf, assemble, BitVec.getLsbD_append, BitVec.getLsbD_append]; simp

theorem assemble_fields (p : F64) : assemble (signOf p) (expOf p) (fracOf p) = p := by
  simp only [assemble, expOf, fracOf, signOf, BitVec.ofNat_toNat, BitVec.setWidth_eq]
  apply BitVec.eq_of_getLsbD_eq
  intro i hi
  simp only [BitVec.getLsbD_append, BitVec.getLsbD_extractLsb', BitVec.getLsbD_ofBool]
  by_cases h1 : i < 52
  · simp [h1]
  · by_cases h2 : i - 52 < 11
    · simp [h1, h2]; congr 1; omega
    · have : i = 63 := by omega
      subst this; simp
theorem expOf_lt (p : F64) : expOf p < 2048 := (p.extractLsb' 52 11).isLt
theorem fracOf_lt (p : F64) : fracOf p < 2 ^ 52 := (p.extractLsb' 0 52).isLt

/-! ## Spacing and rounding of a magnitude -/

/-- A magnitude (in units of 2^-1074) that binary64 spaces: a multiple of the spacing of its own binade. -/
def Spaced (u : Nat) : Prop := 2 ^ (Nat.log2 u - 52) ∣ u

theorem log2_le_iff {u k : Nat} (h : u ≠ 0) : k ≤ Nat.log2 u ↔ 2 ^ k ≤ u := Nat.le_log2 h

theorem log2_mul_pow {m g : Nat} (h : 2 ^ 52 ≤ m) (h' : m < 2 ^ 53) : Nat.log2 (m * 2 ^ g) = 52 + g := by
  have hm : m ≠ 0 := by omega
  have hne : m * 2 ^ g ≠ 0 := by positivity
  rw [Nat.log2_eq_iff hne]
  constructor
  · rw [pow_add]; exact Nat.mul_le_mul_right _ h
  · rw [show 52 + g + 1 = 53 + g by omega, pow_add]; exact Nat.mul_lt_mul_of_pos_right h' (by positivity)

theorem spaced_of_lt {u : Nat} (h : u < 2 ^ 53) : Spaced u := by
  unfold Spaced
  by_cases hu : u = 0
  · subst hu; exact dvd_zero _
  · have : Nat.log2 u < 53 := (Nat.log2_lt hu).2 h
    simp [show Nat.log2 u - 52 = 0 by omega]

theorem spaced_mul_pow {m g : Nat} (h : m ≤ 2 ^ 53) : Spaced (m * 2 ^ g) := by
  unfold Spaced
  by_cases hz : m * 2 ^ g = 0
  · rw [hz]; exact dvd_zero _
  have hl : Nat.log2 (m * 2 ^ g) ≤ 53 + g := by
    by_contra hc
    have := (log2_le_iff hz).1 (show 53 + g + 1 ≤ _ by omega)
    have h2 : m * 2 ^ g ≤ 2 ^ (53 + g) := by rw [pow_add]; exact Nat.mul_le_mul_right _ h
    have h3 : (2:Nat) ^ (53 + g) < 2 ^ (53 + g + 1) := Nat.pow_lt_pow_right (by norm_num) (by omega)
    omega
  by_cases he : Nat.log2 (m * 2 ^ g) = 53 + g
  · have h1 := (log2_le_iff hz).1 he.ge
    have h2 : m * 2 ^ g ≤ 2 ^ (53 + g) := by rw [pow_add]; exact Nat.mul_le_mul_right _ h
    rw [le_antisymm h2 h1, Nat.log2_two_pow]
    exact pow_dvd_pow 2 (by omega)
  · exact (pow_dvd_pow 2 (by omega)).trans (dvd_mul_left _ _)

theorem spaced_two_pow (j : Nat) : Spaced (2 ^ j) := by
  have := spaced_mul_pow (m := 1) (g := j) (by norm_num)
  simpa using this

theorem spacing_pos (n d : Nat) : 0 < spacing n d := by unfold spacing; positivity

/-- A spaced magnitude at or above n/d is a multiple of the spacing at n/d. -/
theorem spacing_dvd {n d u : Nat} (hu : Spaced u) (h : Nat.log2 (n / d) ≤ Nat.log2 u ∨ Nat.log2 (n/d) ≤ 52) :
    spacing n d ∣ u := by
  unfold spacing
  rcases h with h | h
  · exact (pow_dvd_pow 2 (by omega)).trans hu
  · rw [show max (Nat.log2 (n / d)) 52 - 52 = 0 by omega]; simp

theorem log2_mono {a b : Nat} (h : a ≤ b) : Nat.log2 a ≤ Nat.log2 b := by
  by_cases ha : a = 0
  · subst ha; simp [Nat.log2_zero]
  · exact (log2_le_iff (by omega)).2 (le_trans (Nat.log2_self_le ha) h)

theorem roundQuotient_le {n d c : Nat} (hd : 0 < d) (h : n ≤ c * d) : roundQuotient n d ≤ c := by
  simp only [roundQuotient]
  have h1 : n / d ≤ c := Nat.div_le_of_le_mul (by rw [mul_comm]; exact h)
  split_ifs with hc
  · rcases Nat.lt_or_ge (n / d) c with hlt | hge
    · exact hlt
    · have he : n / d = c := le_antisymm h1 hge
      have := Nat.div_add_mod n d
      rw [he] at this
      have h0 : n % d = 0 := by have := Nat.mul_comm d c; omega
      rcases hc with hc | hc <;> omega
  · exact h1

theorem le_roundQuotient {n d c : Nat} (hd : 0 < d) (h : c * d ≤ n) : c ≤ roundQuotient n d := by
  have h1 : c ≤ n / d := (Nat.le_div_iff_mul_le hd).2 h
  simp only [roundQuotient]
  split_ifs <;> omega

/-- Rounding does not cross a binary64 magnitude from below. -/
theorem roundMag_le {n d u : Nat} (hd : 0 < d) (hu : Spaced u) (h : n ≤ u * d) : roundMag n d ≤ u := by
  have hq := spacing_pos n d
  obtain ⟨c, hc⟩ := spacing_dvd (n := n) (d := d) hu (.inl (log2_mono (Nat.div_le_of_le_mul (by rw [mul_comm]; exact h))))
  unfold roundMag
  have : roundQuotient n (d * spacing n d) ≤ c := roundQuotient_le (by positivity) (by
    calc n ≤ u * d := h
      _ = c * (d * spacing n d) := by rw [hc]; ring)
  calc _ ≤ c * spacing n d := Nat.mul_le_mul_right _ this
    _ = u := by rw [hc]; ring

/-- Rounding does not cross a binary64 magnitude from above. -/
theorem le_roundMag {n d u : Nat} (hd : 0 < d) (hu : Spaced u) (h : u * d ≤ n) : u ≤ roundMag n d := by
  have hq := spacing_pos n d
  have hle : u ≤ n / d := (Nat.le_div_iff_mul_le hd).2 h
  by_cases hb : Nat.log2 (n / d) ≤ Nat.log2 u ∨ Nat.log2 (n / d) ≤ 52
  · obtain ⟨c, hc⟩ := spacing_dvd hu hb
    unfold roundMag
    have : c ≤ roundQuotient n (d * spacing n d) := le_roundQuotient (by positivity) (by
      calc c * (d * spacing n d) = u * d := by rw [hc]; ring
        _ ≤ n := h)
    calc u = c * spacing n d := by rw [hc]; ring
      _ ≤ _ := Nat.mul_le_mul_right _ this
  · rw [not_or] at hb
    have hb1 := hb.1
    have hb2 := hb.2
    have hne : n / d ≠ 0 := by intro h0; rw [h0] at hb2; simp [Nat.log2_zero] at hb2
    have hl : 2 ^ Nat.log2 (n / d) ≤ n / d := Nat.log2_self_le hne
    have hul : u < 2 ^ Nat.log2 (n / d) := by
      by_cases h0 : u = 0
      · rw [h0]; positivity
      · exact (Nat.log2_lt h0).1 (by omega)
    have hs : spacing n d = 2 ^ (Nat.log2 (n / d) - 52) := by
      unfold spacing; congr 1; omega
    have hk : 2 ^ 52 ≤ roundQuotient n (d * spacing n d) := le_roundQuotient (by positivity) (by
      calc 2 ^ 52 * (d * spacing n d) = 2 ^ Nat.log2 (n / d) * d := by
            rw [hs]
            rw [show Nat.log2 (n/d) = 52 + (Nat.log2 (n/d) - 52) by omega, pow_add, Nat.add_sub_cancel_left]; ring
        _ ≤ (n / d) * d := Nat.mul_le_mul_right _ hl
        _ ≤ n := Nat.div_mul_le_self n d)
    unfold roundMag
    calc u ≤ 2 ^ Nat.log2 (n / d) := hul.le
      _ = 2 ^ 52 * spacing n d := by
          rw [hs, ← pow_add]; congr 1; omega
      _ ≤ _ := Nat.mul_le_mul_right _ hk

/-- An exact binary64 magnitude rounds to itself. -/
theorem roundMag_exact {d u : Nat} (hd : 0 < d) (hu : Spaced u) : roundMag (u * d) d = u :=
  le_antisymm (roundMag_le hd hu le_rfl) (le_roundMag hd hu le_rfl)

theorem roundQuotient_bound (n d : Nat) (hd : 0 < d) : roundQuotient n (d * spacing n d) ≤ 2 ^ 53 := by
  have hq := spacing_pos n d
  apply roundQuotient_le (by positivity)
  have h1 : n < (n / d + 1) * d := by
    have := Nat.div_add_mod n d
    have := Nat.mod_lt n hd
    nlinarith
  have h2 : n / d + 1 ≤ 2 ^ 53 * spacing n d := by
    by_cases h0 : n / d = 0
    · rw [h0]; have : 1 ≤ 2 ^ 53 * spacing n d := Nat.mul_pos (by positivity) hq
      omega
    · have hl : n / d < 2 ^ (Nat.log2 (n / d) + 1) := Nat.lt_log2_self
      have : 2 ^ (Nat.log2 (n / d) + 1) ≤ 2 ^ 53 * spacing n d := by
        unfold spacing; rw [← pow_add]; exact Nat.pow_le_pow_right (by norm_num) (by omega)
      omega
  calc n ≤ (n / d + 1) * d := h1.le
    _ ≤ 2 ^ 53 * spacing n d * d := Nat.mul_le_mul_right _ h2
    _ = _ := by ring

theorem roundMag_spaced (n d : Nat) (hd : 0 < d) : Spaced (roundMag n d) :=
  spaced_mul_pow (roundQuotient_bound n d hd)

theorem two_pow_split (a b c : Nat) (h : a + b = c) : 2 ^ c = 2 ^ a * 2 ^ b := by rw [← h, pow_add]

theorem overflowUnits_eq (a b : Nat) (h : a + b = 2098) : overflowUnits = 2 ^ a * 2 ^ b := by
  unfold overflowUnits; exact two_pow_split a b 2098 h

/-! ## Magnitudes -/

theorem mag_assemble (s : Bool) (e t : Nat) : mag (assemble s e t) =
    if e % 2 ^ 11 = 0 then t % 2 ^ 52 else (2 ^ 52 + t % 2 ^ 52) * 2 ^ (e % 2 ^ 11 - 1) := by
  simp [mag]

theorem mag_spaced (p : F64) : Spaced (mag p) := by
  have ht := fracOf_lt p
  unfold mag
  split_ifs
  · exact spaced_of_lt (by omega)
  · exact spaced_mul_pow (by omega)

theorem mag_lt_overflow {p : F64} (h : isfinite p = true) : mag p < overflowUnits := by
  have ht := fracOf_lt p
  have he := expOf_lt p
  simp only [isfinite, bne_iff_ne, ne_eq] at h
  obtain ⟨k, hk, hov⟩ : ∃ k, k = 2045 ∧ overflowUnits = 2 ^ 53 * 2 ^ k :=
    ⟨2045, rfl, overflowUnits_eq 53 2045 (by norm_num)⟩
  rw [hov]
  unfold mag
  split_ifs
  · calc fracOf p < 2 ^ 53 * 1 := by omega
      _ ≤ 2 ^ 53 * 2 ^ k := Nat.mul_le_mul_left _ Nat.one_le_two_pow
  · calc (2 ^ 52 + fracOf p) * 2 ^ (expOf p - 1) < 2 ^ 53 * 2 ^ (expOf p - 1) :=
          Nat.mul_lt_mul_of_pos_right (by omega) (by positivity)
      _ ≤ 2 ^ 53 * 2 ^ k := Nat.mul_le_mul_left _ (Nat.pow_le_pow_right (by norm_num) (by omega))

/-- The fields of a normal magnitude: exponent and significand of `ofMag`. -/
theorem ofMag_normal {s : Bool} {m g : Nat} (h : 2 ^ 52 ≤ m) (h' : m < 2 ^ 53) :
    ofMag s (m * 2 ^ g) = assemble s (g + 1) (m - 2 ^ 52) := by
  have hl := log2_mul_pow (g := g) h h'
  have hge : ¬ m * 2 ^ g < 2 ^ 52 := by
    have : m * 1 ≤ m * 2 ^ g := Nat.mul_le_mul_left _ Nat.one_le_two_pow
    omega
  unfold ofMag
  rw [if_neg hge, hl]
  rw [show 52 + g - 51 = g + 1 by omega, show 52 + g - 52 = g by omega, Nat.mul_div_cancel _ (by positivity)]

/-- A spaced magnitude is a subnormal or a 53-bit significand times a power of two. -/
theorem spaced_cases {u : Nat} (hu : Spaced u) :
    u < 2 ^ 52 ∨ ∃ m g, 2 ^ 52 ≤ m ∧ m < 2 ^ 53 ∧ u = m * 2 ^ g := by
  by_cases h : u < 2 ^ 52
  · exact .inl h
  · right
    have hne : u ≠ 0 := by omega
    have hl : 52 ≤ Nat.log2 u := (log2_le_iff hne).2 (by omega)
    obtain ⟨m, hm⟩ := hu
    refine ⟨m, Nat.log2 u - 52, ?_, ?_, by rw [mul_comm]; exact hm⟩
    · have h1 := Nat.log2_self_le hne
      by_contra hc
      have : u < 2 ^ Nat.log2 u := by
        calc u = 2 ^ (Nat.log2 u - 52) * m := hm
          _ < 2 ^ (Nat.log2 u - 52) * 2 ^ 52 := Nat.mul_lt_mul_of_pos_left (by omega) (by positivity)
          _ = 2 ^ Nat.log2 u := by rw [← pow_add]; congr 1; omega
      omega
    · have h1 : u < 2 ^ (Nat.log2 u + 1) := Nat.lt_log2_self
      by_contra hc
      have : 2 ^ (Nat.log2 u + 1) ≤ u := by
        calc 2 ^ (Nat.log2 u + 1) = 2 ^ (Nat.log2 u - 52) * 2 ^ 53 := by rw [← pow_add]; congr 1; omega
          _ ≤ 2 ^ (Nat.log2 u - 52) * m := Nat.mul_le_mul_left _ (by omega)
          _ = u := hm.symm
      omega

theorem exp_lt_of_lt_overflow {m g : Nat} (h : 2 ^ 52 ≤ m) (ho : m * 2 ^ g < overflowUnits) : g < 2046 := by
  by_contra hc
  obtain ⟨k, hk, hov⟩ : ∃ k, k = 2046 ∧ overflowUnits = 2 ^ 52 * 2 ^ k :=
    ⟨2046, rfl, overflowUnits_eq 52 2046 (by norm_num)⟩
  have h2 : 2 ^ 52 * 2 ^ k ≤ m * 2 ^ g := Nat.mul_le_mul h (Nat.pow_le_pow_right (by norm_num) (by omega))
  rw [hov] at ho
  exact absurd h2 (Nat.not_le.2 ho)

@[simp] theorem signOf_ofMag (s : Bool) (u : Nat) : signOf (ofMag s u) = s := by
  unfold ofMag; split_ifs <;> simp

theorem mag_ofMag {s : Bool} {u : Nat} (hu : Spaced u) (ho : u < overflowUnits) : mag (ofMag s u) = u := by
  rcases spaced_cases hu with h | ⟨m, g, h1, h2, rfl⟩
  · unfold ofMag; rw [if_pos h, mag_assemble]; simp only [Nat.zero_mod, if_true]; exact Nat.mod_eq_of_lt h
  · have hg := exp_lt_of_lt_overflow h1 ho
    rw [ofMag_normal h1 h2, mag_assemble, Nat.mod_eq_of_lt (show g + 1 < 2 ^ 11 by omega), if_neg (by omega),
      Nat.mod_eq_of_lt (show m - 2 ^ 52 < 2 ^ 52 by omega), Nat.add_sub_cancel, Nat.add_sub_cancel' h1]

theorem isfinite_ofMag {s : Bool} {u : Nat} (hu : Spaced u) (ho : u < overflowUnits) : isfinite (ofMag s u) = true := by
  rcases spaced_cases hu with h | ⟨m, g, h1, h2, rfl⟩
  · unfold ofMag; rw [if_pos h]; simp [isfinite]
  · have hg := exp_lt_of_lt_overflow h1 ho
    rw [ofMag_normal h1 h2]; simp only [isfinite, expOf_assemble, bne_iff_ne, ne_eq]
    rw [Nat.mod_eq_of_lt (by omega)]; omega

/-- Every pattern is rebuilt from its sign and its magnitude. -/
theorem ofMag_mag (p : F64) : ofMag (signOf p) (mag p) = p := by
  have ht := fracOf_lt p
  have he := expOf_lt p
  conv_rhs => rw [← assemble_fields p]
  unfold mag
  split_ifs with h0
  · unfold ofMag; rw [if_pos ht, h0]
  · rw [ofMag_normal (by omega) (by omega), Nat.add_sub_cancel_left, Nat.sub_add_cancel (by omega)]

@[simp] theorem signOf_zeroOf (s : Bool) : signOf (zeroOf s) = s := by simp [zeroOf]
@[simp] theorem mag_zeroOf (s : Bool) : mag (zeroOf s) = 0 := by simp [zeroOf, mag]
@[simp] theorem isfinite_zeroOf (s : Bool) : isfinite (zeroOf s) = true := by simp [zeroOf, isfinite]
@[simp] theorem isZero_zeroOf (s : Bool) : isZero (zeroOf s) = true := by simp [zeroOf, isZero]
@[simp] theorem signOf_infOf (s : Bool) : signOf (infOf s) = s := by simp [infOf]
@[simp] theorem isInf_infOf (s : Bool) : isInf (infOf s) = true := by simp [infOf, isInf]
@[simp] theorem isNaN_infOf (s : Bool) : isNaN (infOf s) = false := by simp [infOf, isNaN]
@[simp] theorem isfinite_infOf (s : Bool) : isfinite (infOf s) = false := by simp [infOf, isfinite]

theorem mag_eq_zero_iff {p : F64} : mag p = 0 ↔ isZero p = true := by
  unfold mag isZero
  split_ifs with h <;> simp [h]

theorem isZero_iff_of_finite {p : F64} : isZero p = true ↔ val p = 0 := by
  rw [← mag_eq_zero_iff]; unfold val; split_ifs <;> omega

theorem natAbs_val (p : F64) : (val p).natAbs = mag p := by unfold val; split_ifs <;> simp

theorem finite_not_nan {p : F64} (h : isfinite p = true) : isNaN p = false ∧ isInf p = false := by
  simp only [isfinite, bne_iff_ne, ne_eq] at h
  simp [isNaN, isInf, h]

theorem isfinite_iff (p : F64) : isfinite p = true ↔ isNaN p = false ∧ isInf p = false := by
  simp only [isfinite, isNaN, isInf]
  by_cases h : expOf p = 2047 <;> by_cases h2 : fracOf p = 0 <;> simp [h, h2]

theorem isNaN_someNaN (n : Nat) : isNaN (someNaN n) = true := by
  unfold someNaN
  split_ifs with h
  · exact h
  · decide +kernel

/-! ## round -/

/-- What `round` gives when the rounded magnitude stays below 2^1024. -/
theorem round_finite {r : Int} {d : Nat} {s : Bool} (hd : 0 < d) (h : roundMag r.natAbs d < overflowUnits) :
    isfinite (round r d s) = true ∧ mag (round r d s) = roundMag r.natAbs d ∧
      signOf (round r d s) = if r = 0 then s else decide (r < 0) := by
  unfold round
  by_cases h0 : r = 0
  · subst h0
    simp [roundMag, roundQuotient]
  · rw [if_neg h0, if_neg h0, if_neg (by omega)]
    exact ⟨isfinite_ofMag (roundMag_spaced _ _ hd) h, mag_ofMag (roundMag_spaced _ _ hd) h, by simp⟩

/-- What `round` gives when the rounded magnitude reaches 2^1024. -/
theorem round_overflow {r : Int} {d : Nat} {s : Bool} (h0 : r ≠ 0) (h : overflowUnits ≤ roundMag r.natAbs d) :
    round r d s = infOf (decide (r < 0)) := by
  unfold round; rw [if_neg h0, if_pos h]

theorem round_not_nan (r : Int) (d : Nat) (hd : 0 < d) (s : Bool) : isNaN (round r d s) = false := by
  by_cases h : roundMag r.natAbs d < overflowUnits
  · exact (finite_not_nan (round_finite hd h).1).1
  · by_cases h0 : r = 0
    · subst h0; simp [round, zeroOf, isNaN]
    · rw [round_overflow h0 (by omega)]; simp

/-- The signed value of a rounding that does not overflow. -/
theorem val_round {r : Int} {d : Nat} {s : Bool} (hd : 0 < d) (h : roundMag r.natAbs d < overflowUnits) :
    val (round r d s) = if r < 0 then -(roundMag r.natAbs d : Int) else (roundMag r.natAbs d : Int) := by
  obtain ⟨-, h2, h3⟩ := round_finite (s := s) hd h
  unfold val
  rw [h3, h2]
  by_cases h0 : r = 0
  · subst h0; cases s <;> simp [roundMag, roundQuotient]
  · by_cases hn : r < 0 <;> simp [h0, hn]

end Sys2Proof.Machine
end

