-- ==== Sys2Proof/Laws/FpOps.lean ====
section
/-!
SUPPORT. Lemmas of the datapath's operations: negation, the adder and the multiplier on finite operands with their
bounds, zeros, infinities and the comparator, and the relation "equal, or both NaN", which every operation keeps whatever the draws.
-/

namespace Sys2Proof.Machine

theorem two_pow_lt_overflow {j : Nat} (h : j < 2098) : 2 ^ j < overflowUnits := by
  rw [overflowUnits_eq (j + 1) (2097 - j) (by omega)]
  calc 2 ^ j < 2 ^ (j + 1) := Nat.pow_lt_pow_right (by norm_num) (by omega)
    _ ≤ 2 ^ (j + 1) * 2 ^ (2097 - j) := Nat.le_mul_of_pos_right _ (by positivity)

theorem oneUnits_pos : 0 < oneUnits := by unfold oneUnits; positivity

@[simp] theorem expOf_neg (p : F64) : expOf (neg p) = expOf p := by
  unfold expOf neg; congr 1
  apply BitVec.eq_of_getLsbD_eq; intro i hi
  simp only [BitVec.getLsbD_extractLsb', BitVec.getLsbD_xor, hi, decide_true, Bool.true_and]
  have : (0x8000000000000000#64).getLsbD (52 + i) = false := by
    interval_cases i <;> rfl
  rw [this]; simp

@[simp] theorem fracOf_neg (p : F64) : fracOf (neg p) = fracOf p := by
  unfold fracOf neg; congr 1
  apply BitVec.eq_of_getLsbD_eq; intro i hi
  simp only [BitVec.getLsbD_extractLsb', BitVec.getLsbD_xor, hi, decide_true, Bool.true_and]
  have : (0x8000000000000000#64).getLsbD (0 + i) = false := by
    interval_cases i <;> rfl
  rw [this]; simp

@[simp] theorem signOf_neg (p : F64) : signOf (neg p) = !signOf p := by
  unfold signOf neg; rw [BitVec.getLsbD_xor]; cases p.getLsbD 63 <;> rfl

@[simp] theorem isNaN_neg (p : F64) : isNaN (neg p) = isNaN p := by simp [isNaN]
@[simp] theorem isInf_neg (p : F64) : isInf (neg p) = isInf p := by simp [isInf]
@[simp] theorem isZero_neg (p : F64) : isZero (neg p) = isZero p := by simp [isZero]
@[simp] theorem isfinite_neg (p : F64) : isfinite (neg p) = isfinite p := by simp [isfinite]
@[simp] theorem mag_neg (p : F64) : mag (neg p) = mag p := by simp [mag]
@[simp] theorem val_neg (p : F64) : val (neg p) = -val p := by
  unfold val; rw [signOf_neg, mag_neg]; cases signOf p <;> simp

/-! ## The adder and the multiplier on finite operands -/

theorem fadd_of_finite {n : Nat} {a b : F64} (ha : isfinite a = true) (hb : isfinite b = true) :
    fadd n a b = if isZero a && isZero b && signOf a == signOf b then a else round (val a + val b) 1 false := by
  unfold fadd
  simp [(finite_not_nan ha).1, (finite_not_nan hb).1, (finite_not_nan ha).2, (finite_not_nan hb).2]

theorem fmul_of_finite {n : Nat} {a b : F64} (ha : isfinite a = true) (hb : isfinite b = true) :
    fmul n a b = round (val a * val b) oneUnits (signOf a != signOf b) := by
  unfold fmul
  simp [(finite_not_nan ha).1, (finite_not_nan hb).1, (finite_not_nan ha).2, (finite_not_nan hb).2]

/-- A finite sum: the exact sum, rounded. -/
theorem fadd_spec {n : Nat} {a b : F64} (ha : isfinite a = true) (hb : isfinite b = true)
    (h : roundMag (val a + val b).natAbs 1 < overflowUnits) :
    isfinite (fadd n a b) = true ∧
      val (fadd n a b) = (if val a + val b < 0 then -1 else 1) * (roundMag (val a + val b).natAbs 1 : Int) := by
  rw [fadd_of_finite ha hb]
  split_ifs with hz hn hn
  · simp only [Bool.and_eq_true] at hz
    have h1 := isZero_iff_of_finite.1 hz.1.1
    have h2 := isZero_iff_of_finite.1 hz.1.2
    omega
  · simp only [Bool.and_eq_true] at hz
    have h1 := isZero_iff_of_finite.1 hz.1.1
    have h2 := isZero_iff_of_finite.1 hz.1.2
    refine ⟨ha, ?_⟩
    rw [h1, h2]; simp [roundMag, roundQuotient]
  · refine ⟨(round_finite (by norm_num) h).1, ?_⟩
    rw [val_round (by norm_num) h, if_pos hn]; ring
  · refine ⟨(round_finite (by norm_num) h).1, ?_⟩
    rw [val_round (by norm_num) h, if_neg hn]; ring

/-- A finite product: the exact product, rounded. -/
theorem fmul_spec {n : Nat} {a b : F64} (ha : isfinite a = true) (hb : isfinite b = true)
    (h : roundMag (mag a * mag b) oneUnits < overflowUnits) :
    isfinite (fmul n a b) = true ∧ mag (fmul n a b) = roundMag (mag a * mag b) oneUnits ∧
      signOf (fmul n a b) = (signOf a != signOf b) := by
  have hm : (val a * val b).natAbs = mag a * mag b := by rw [Int.natAbs_mul, natAbs_val, natAbs_val]
  rw [← hm] at h
  rw [fmul_of_finite ha hb, ← hm]
  obtain ⟨h1, h2, h3⟩ := round_finite (s := (signOf a != signOf b)) oneUnits_pos h
  refine ⟨h1, h2, ?_⟩
  rw [h3]
  split_ifs with h0
  · rfl
  · unfold val at h0 ⊢
    rcases Nat.eq_zero_or_pos (mag a) with hz | hz
    · simp [hz] at h0
    rcases Nat.eq_zero_or_pos (mag b) with hy | hy
    · simp [hy] at h0
    cases signOf a <;> cases signOf b <;> simp [hz, hy]

/-- A sum bounded by a power of two below 2^1024 is finite and keeps the bound. -/
theorem fadd_bound {n j : Nat} {a b : F64} (hj : j < 2098) (ha : isfinite a = true) (hb : isfinite b = true)
    (h : (val a + val b).natAbs ≤ 2 ^ j) : isfinite (fadd n a b) = true ∧ mag (fadd n a b) ≤ 2 ^ j := by
  have hr : roundMag (val a + val b).natAbs 1 ≤ 2 ^ j := roundMag_le (by norm_num) (spaced_two_pow j) (by omega)
  obtain ⟨h1, h2⟩ := fadd_spec (n := n) ha hb (lt_of_le_of_lt hr (two_pow_lt_overflow hj))
  refine ⟨h1, ?_⟩
  rw [← natAbs_val, h2]; split_ifs <;> simpa using hr

/-- A product bounded by a power of two below 2^1024 is finite and keeps the bound. -/
theorem fmul_bound {n j : Nat} {a b : F64} (hj : j < 2098) (ha : isfinite a = true) (hb : isfinite b = true)
    (h : mag a * mag b ≤ 2 ^ j * oneUnits) : isfinite (fmul n a b) = true ∧ mag (fmul n a b) ≤ 2 ^ j := by
  have hr := roundMag_le oneUnits_pos (spaced_two_pow j) h
  obtain ⟨h1, h2, -⟩ := fmul_spec (n := n) ha hb (lt_of_le_of_lt hr (two_pow_lt_overflow hj))
  exact ⟨h1, h2 ▸ hr⟩

/-! ## Zeros, infinities and the comparator -/

theorem eq_infOf {p : F64} (h : isInf p = true) : p = infOf (signOf p) := by
  simp only [isInf, Bool.and_eq_true, beq_iff_eq] at h
  conv_lhs => rw [← assemble_fields p, h.1, h.2]
  rfl

theorem eq_zeroOf {p : F64} (h : isZero p = true) : p = zeroOf (signOf p) := by
  simp only [isZero, Bool.and_eq_true, beq_iff_eq] at h
  conv_lhs => rw [← assemble_fields p, h.1, h.2]
  rfl

theorem isfinite_of_isZero {p : F64} (h : isZero p = true) : isfinite p = true := by rw [eq_zeroOf h]; simp

@[simp] theorem isZero_infOf (s : Bool) : isZero (infOf s) = false := by simp [infOf, isZero]
@[simp] theorem val_zeroOf (s : Bool) : val (zeroOf s) = 0 := by simp [val]
@[simp] theorem neg_infOf (s : Bool) : neg (infOf s) = infOf (!s) := by
  rw [eq_infOf (p := neg (infOf s)) (by simp)]; simp
@[simp] theorem neg_zeroOf (s : Bool) : neg (zeroOf s) = zeroOf (!s) := by
  rw [eq_zeroOf (p := neg (zeroOf s)) (by simp)]; simp
@[simp] theorem round_zero (d : Nat) (s : Bool) : Machine.round 0 d s = zeroOf s := by simp [Machine.round]

theorem overflowUnits_pos : 0 < overflowUnits := by unfold overflowUnits; positivity

@[simp] theorem mag_infOf (s : Bool) : mag (infOf s) = overflowUnits := by
  rw [infOf, mag_assemble, overflowUnits_eq 52 2046 rfl, if_neg (by norm_num),
    show 0x7FF % 2 ^ 11 - 1 = 2046 from rfl, Nat.zero_mod, Nat.add_zero]

theorem val_infOf (s : Bool) : val (infOf s) = if s then -(overflowUnits : Int) else overflowUnits := by simp [val]

theorem val_between {p : F64} (h : isfinite p = true) :
    -(overflowUnits : Int) < val p ∧ val p < overflowUnits := by
  have := mag_lt_overflow h
  have := natAbs_val p
  omega

/-- The comparator on two numbers: their values decide, an infinity beyond every finite value (R127). -/
theorem fgt_of_numbers {a b : F64} (ha : isNaN a = false) (hb : isNaN b = false) :
    fgt a b = decide (val b < val a) := by simp [fgt, ha, hb]

/-! ## NaN results do not depend on the draw -/

/-- Two patterns agree up to the NaN drawn: they are equal, or both are NaNs. -/
def SameUpToNaN (a b : F64) : Prop := a = b ∨ (isNaN a = true ∧ isNaN b = true)

theorem SameUpToNaN.refl (a : F64) : SameUpToNaN a a := .inl rfl

theorem fadd_nan_left {n : Nat} {a b : F64} (h : isNaN a = true) : fadd n a b = someNaN n := by simp [fadd, h]
theorem fadd_nan_right {n : Nat} {a b : F64} (h : isNaN b = true) : fadd n a b = someNaN n := by simp [fadd, h]
theorem fmul_nan_left {n : Nat} {a b : F64} (h : isNaN a = true) : fmul n a b = someNaN n := by simp [fmul, h]
theorem fmul_nan_right {n : Nat} {a b : F64} (h : isNaN b = true) : fmul n a b = someNaN n := by simp [fmul, h]

theorem fadd_draw (n m : Nat) (a b : F64) : SameUpToNaN (fadd n a b) (fadd m a b) := by
  unfold fadd SameUpToNaN; split_ifs <;> simp [isNaN_someNaN]

theorem fmul_draw (n m : Nat) (a b : F64) : SameUpToNaN (fmul n a b) (fmul m a b) := by
  unfold fmul SameUpToNaN; split_ifs <;> simp [isNaN_someNaN]

theorem fadd_same {n m : Nat} {a b a' b' : F64} (h : SameUpToNaN a a') (h' : SameUpToNaN b b') :
    SameUpToNaN (fadd n a b) (fadd m a' b') := by
  rcases h with rfl | ⟨h1, h2⟩
  · rcases h' with rfl | ⟨h3, h4⟩
    · exact fadd_draw n m a b
    · exact .inr (by rw [fadd_nan_right h3, fadd_nan_right h4]; exact ⟨isNaN_someNaN _, isNaN_someNaN _⟩)
  · exact .inr (by rw [fadd_nan_left h1, fadd_nan_left h2]; exact ⟨isNaN_someNaN _, isNaN_someNaN _⟩)

theorem fmul_same {n m : Nat} {a b a' b' : F64} (h : SameUpToNaN a a') (h' : SameUpToNaN b b') :
    SameUpToNaN (fmul n a b) (fmul m a' b') := by
  rcases h with rfl | ⟨h1, h2⟩
  · rcases h' with rfl | ⟨h3, h4⟩
    · exact fmul_draw n m a b
    · exact .inr (by rw [fmul_nan_right h3, fmul_nan_right h4]; exact ⟨isNaN_someNaN _, isNaN_someNaN _⟩)
  · exact .inr (by rw [fmul_nan_left h1, fmul_nan_left h2]; exact ⟨isNaN_someNaN _, isNaN_someNaN _⟩)

theorem neg_same {a b : F64} (h : SameUpToNaN a b) : SameUpToNaN (neg a) (neg b) := by
  rcases h with rfl | ⟨h1, h2⟩
  · exact .inl rfl
  · exact .inr (by simp [h1, h2])

theorem fsub_same {n m : Nat} {a b a' b' : F64} (h : SameUpToNaN a a') (h' : SameUpToNaN b b') :
    SameUpToNaN (fsub n a b) (fsub m a' b') := fadd_same h (neg_same h')

theorem SameUpToNaN.isfinite_eq {a b : F64} (h : SameUpToNaN a b) : isfinite a = isfinite b := by
  rcases h with rfl | ⟨h1, h2⟩
  · rfl
  · simp only [isNaN, Bool.and_eq_true, beq_iff_eq] at h1 h2
    simp [isfinite, h1.1, h2.1]

theorem SameUpToNaN.fgt_eq {a b c : F64} (h : SameUpToNaN a b) : fgt a c = fgt b c := by
  rcases h with rfl | ⟨h1, h2⟩
  · rfl
  · simp [fgt, h1, h2]

end Sys2Proof.Machine
end

