-- ==== Sys2Proof/Laws/Coordinates.lean ====
section
/-!
SUPPORT. The coordinate generator: rounding depends on the fraction only, the integers of the converter's domain are
exact, and the quotient of a grid index is 2n/SIZE rounded once.
-/

namespace Sys2Proof.Machine

theorem roundQuotient_scale {n d c : Nat} (hc : 0 < c) : roundQuotient (n * c) (d * c) = roundQuotient n d := by
  simp only [roundQuotient, Nat.mul_div_mul_right _ _ hc, Nat.mul_mod_mul_right]
  have h1 : 2 * (n % d * c) > d * c ↔ 2 * (n % d) > d := by
    rw [← mul_assoc]; exact Nat.mul_lt_mul_right hc
  have h2 : 2 * (n % d * c) = d * c ↔ 2 * (n % d) = d := by
    rw [← mul_assoc]; exact Nat.mul_left_inj hc.ne'
  simp only [h1, h2]

/-- Rounding depends on the fraction only, not on how it is written. -/
theorem roundMag_scale {n d c : Nat} (hc : 0 < c) : roundMag (n * c) (d * c) = roundMag n d := by
  have hs : spacing (n * c) (d * c) = spacing n d := by simp only [spacing, Nat.mul_div_mul_right _ _ hc]
  unfold roundMag
  rw [hs, show d * c * spacing n d = d * spacing n d * c by ring, roundQuotient_scale hc]

theorem round_scale {n d c : Nat} {s : Bool} (hc : 0 < c) :
    round ((n * c : Nat) : Int) (d * c) s = round (n : Int) d s := by
  unfold round
  have h0 : ((n * c : Nat) : Int) = 0 ↔ (n : Int) = 0 := by
    rw [Nat.cast_eq_zero, Nat.cast_eq_zero, Nat.mul_eq_zero]; omega
  have hl : (decide (((n * c : Nat) : Int) < 0)) = decide ((n : Int) < 0) := by
    rw [decide_eq_decide]; omega
  simp only [h0, hl, Int.natAbs_natCast, roundMag_scale hc]

theorem oneUnits_eq (a b : Nat) (h : a + b = 1074) : oneUnits = 2 ^ a * 2 ^ b := by
  unfold oneUnits; exact two_pow_split a b 1074 h

/-- An integer of the converter's domain is a binary64 magnitude (40_fp_datapath.md R128). -/
theorem spaced_natural {n : Nat} (h : n ≤ 2 ^ 53) : Spaced (n * oneUnits) := by
  unfold oneUnits; exact spaced_mul_pow h

theorem natural_lt_overflow {n : Nat} (h : n < 2 ^ 200) : n * oneUnits < overflowUnits := by
  obtain ⟨k, hk, ho⟩ : ∃ k, k = 1024 ∧ overflowUnits = 2 ^ k * oneUnits :=
    ⟨1024, rfl, by unfold overflowUnits oneUnits; exact two_pow_split 1024 1074 2098 (by norm_num)⟩
  rw [ho]
  apply Nat.mul_lt_mul_of_pos_right _ oneUnits_pos
  exact lt_of_lt_of_le h (Nat.pow_le_pow_right (by norm_num) (by omega))

theorem mag_two : mag two = 2 * oneUnits := by
  obtain ⟨k, hk, ho⟩ : ∃ k, k = 1022 ∧ oneUnits = 2 ^ 52 * 2 ^ k := ⟨1022, rfl, oneUnits_eq 52 1022 (by norm_num)⟩
  have he : expOf two = k + 2 := by rw [hk]; decide +kernel
  have hf : fracOf two = 0 := by decide +kernel
  unfold mag
  rw [he, hf, ho, if_neg (by omega), show k + 2 - 1 = k + 1 by omega, pow_succ]; ring

theorem isfinite_two : isfinite two = true := by decide +kernel
theorem signOf_two : signOf two = false := by decide +kernel

/-- The pattern of an integer in 0..131070. -/
theorem natural_pattern {n : Nat} (h : n ≤ 131070) :
    isfinite (ofMag false (n * oneUnits)) = true ∧ mag (ofMag false (n * oneUnits)) = n * oneUnits := by
  have ho : n * oneUnits < overflowUnits := natural_lt_overflow (lt_of_le_of_lt h (by norm_num))
  have hs : Spaced (n * oneUnits) := spaced_natural (by omega)
  exact ⟨isfinite_ofMag hs ho, mag_ofMag hs ho⟩

/-- The quotient of the coordinate generator: 2n/SIZE, rounded once (43_sequencer.md R210, R211). -/
theorem gridQuotient_eq {size n : Nat} (h : n < size) (hs : size ≤ 65535) :
    gridQuotient size n = some (round ((2 * n * oneUnits : Nat) : Int) size false) := by
  have hU := oneUnits_pos
  obtain ⟨ha1, ha2⟩ := natural_pattern (n := n) (by omega)
  obtain ⟨hb1, hb2⟩ := natural_pattern (n := size) (by omega)
  have hprod : mag two * mag (ofMag false (n * oneUnits)) = 2 * n * oneUnits * oneUnits := by
    rw [mag_two, ha2]; ring
  have hex : roundMag (mag two * mag (ofMag false (n * oneUnits))) oneUnits = 2 * n * oneUnits := by
    rw [hprod]; exact roundMag_exact hU (spaced_natural (by omega))
  obtain ⟨hm1, hm2, hm3⟩ := fmul_spec (n := 0) isfinite_two ha1
    (by rw [hex]; exact natural_lt_overflow (lt_of_lt_of_le (show 2 * n < 2 ^ 18 by omega) (by norm_num)))
  rw [hex] at hm2
  rw [signOf_two, signOf_ofMag] at hm3
  have hna : isNatural (fmul 0 two (ofMag false (n * oneUnits))) = true := by simp [isNatural, hm1, hm2, hm3]
  have hnb : isNatural (ofMag false (size * oneUnits)) = true := by simp [isNatural, hb1, hb2]
  have hne : size * oneUnits ≠ 0 := by have := Nat.mul_pos (show 0 < size by omega) hU; omega
  unfold gridQuotient
  rw [if_pos ⟨h, hs⟩]
  simp only [i2f, if_pos (show n ≤ 131070 by omega), if_pos (show size ≤ 131070 by omega), fdiv, hna, hnb, hm2, hb2]
  simp only [Bool.and_self, Bool.true_and, bne_iff_ne, ne_eq, hne, not_false_eq_true, if_true]
  rw [round_scale hU]

theorem gridQuotient_none {size n : Nat} (h : ¬ (n < size ∧ size ≤ 65535)) : gridQuotient size n = none := by
  unfold gridQuotient; rw [if_neg h]

end Sys2Proof.Machine
end

