-- ==== Sys2Proof/Laws/Ops.lean ====
section
/-!
SUPPORT. What each shared operation can do, said once: the acceptance rule, PACK_BIT, the finish of a point, the draws
of a read, and the rejection of a word.
-/

namespace Sys2Proof.Machine

/-! ## Acceptance -/

theorem acceptCommand_idle {f : State → State} {s : State} (h : s.phase = .idle) :
    acceptCommand f s = .next (f s) := by simp [acceptCommand, State.busy, h]

theorem acceptCommand_busy {f : State → State} {s : State} (h : s.phase ≠ .idle) :
    acceptCommand f s = .next (s.reject .whileBusy) := by simp [acceptCommand, State.busy, h]

/-- Everything a command can do: NOP nothing; while busy every other command is rejected; while idle each has its
effect. -/
theorem exec_cases {i : Instr} {s t : State} (h : exec i s = .next t) :
    (i = .nop ∧ t = s) ∨ (i ≠ .nop ∧ s.phase ≠ .idle ∧ t = s.reject .whileBusy) ∨
    (s.phase = .idle ∧
      ((i = .run ∧ t = s.startRun) ∨ (i = .test ∧ t = s.startTest) ∨
        (∃ b l, i = .pack b l ∧ t = { s with bpk := s.bpk.packBit b l }) ∨ (i = .clear ∧ t = s.bpkClear))) := by
  cases i with
  | nop =>
    simp only [exec, execNop, Host.Outcome.next.injEq] at h
    exact .inl ⟨rfl, h.symm⟩
  | _ =>
    by_cases hp : s.phase = .idle
    · simp only [exec, execRun, execTest, execPack, execClear, acceptCommand_idle hp, Host.Outcome.next.injEq] at h
      subst h
      refine .inr (.inr ⟨hp, ?_⟩)
      first
      | exact .inl ⟨rfl, rfl⟩
      | exact .inr (.inl ⟨rfl, rfl⟩)
      | exact .inr (.inr (.inl ⟨_, _, rfl, rfl⟩))
      | exact .inr (.inr (.inr ⟨rfl, rfl⟩))
    · simp only [exec, execRun, execTest, execPack, execClear, acceptCommand_busy hp, Host.Outcome.next.injEq] at h
      subst h
      simp [hp]

/-- Every command ends in a next state. -/
theorem exec_next (i : Instr) (s : State) : ∃ t, exec i s = .next t := by
  by_cases hp : s.phase = .idle
  · cases i <;> simp [exec, execNop, execRun, execTest, execPack, execClear, acceptCommand_idle hp]
  · cases i <;> simp [exec, execNop, execRun, execTest, execPack, execClear, acceptCommand_busy hp]

/-! ## The packer -/

/-- PACK_BIT in integers (42_bit_packer.md R181). -/
theorem packBit_eq (b l : Bool) (p : Bpk) :
    p.packBit b l =
      if p.bitNum.toNat + 1 = 8 then ⟨p.sum ^^^ BitVec.ofNat 8 (2 * p.byteAcc.toNat + b.toNat), 0, 0⟩
      else if l = true then
        ⟨p.sum ^^^ BitVec.ofNat 8 ((2 * p.byteAcc.toNat + b.toNat) * 2 ^ (8 - (p.bitNum.toNat + 1))), 0, 0⟩
      else
        ⟨p.sum, BitVec.ofNat 8 (2 * p.byteAcc.toNat + b.toNat), BitVec.ofNat 3 (p.bitNum.toNat + 1)⟩ := by
  have hacc : p.byteAcc * 2 + (BitVec.ofBool b).setWidth 8 = BitVec.ofNat 8 (2 * p.byteAcc.toNat + b.toNat) := by
    apply BitVec.eq_of_toNat_eq
    cases b <;> simp [BitVec.toNat_add, BitVec.toNat_mul] <;> omega
  unfold Bpk.packBit
  simp only [hacc]
  split_ifs <;> try rfl
  congr 2
  apply BitVec.eq_of_toNat_eq
  simp [Nat.shiftLeft_eq]

/-- The invariant byte_acc < 2^bit_num is kept by PACK_BIT (42_bit_packer.md R186). -/
theorem packBit_packed {b l : Bool} {p : Bpk} (h : p.byteAcc.toNat < 2 ^ p.bitNum.toNat) :
    (p.packBit b l).byteAcc.toNat < 2 ^ (p.packBit b l).bitNum.toNat := by
  have hn := p.bitNum.isLt
  rw [packBit_eq]
  split_ifs with h8 hl
  · simp
  · simp
  · have hb : b.toNat ≤ 1 := Bool.toNat_le b
    have h2 : 2 * p.byteAcc.toNat + b.toNat < 2 ^ (p.bitNum.toNat + 1) := by rw [pow_succ]; omega
    have h3 : (2 : Nat) ^ (p.bitNum.toNat + 1) ≤ 2 ^ 7 := Nat.pow_le_pow_right (by norm_num) (by omega)
    simp only [BitVec.toNat_ofNat]
    rw [Nat.mod_eq_of_lt (show p.bitNum.toNat + 1 < 2 ^ 3 by omega), Nat.mod_eq_of_lt (by omega)]
    exact h2

/-- The count after PACK_BIT: one more, and 0 after a flush. -/
theorem packBit_bitNum (b l : Bool) (p : Bpk) :
    (p.packBit b l).bitNum.toNat = if p.bitNum.toNat + 1 = 8 ∨ l = true then 0 else p.bitNum.toNat + 1 := by
  have hn := p.bitNum.isLt
  rw [packBit_eq]
  split_ifs <;> simp_all
  omega

/-! ## The finish of a point -/

/-- ERES after one ITER: (escape, it) if the point finished, else as it was (41_escape_test.md R155). -/
theorem iterate_result (s : State) :
    (s.iterate.esc, s.iterate.count) =
      if (s.etu.iter s.draws).finished = true then ((s.etu.iter s.draws).escape, (s.etu.iter s.draws).it)
      else (s.esc, s.count) := by
  simp only [State.iterate, State.finishPoint, Etu.finished, Bool.or_eq_true, beq_iff_eq]
  split_ifs <;> simp_all

/-! ## Operand halves -/

/-- Writing both halves of a pattern, the low one first, leaves the whole pattern (44_host_access.md R245). -/
theorem setHighHalf_setLowHalf (p q : F64) : setHighHalf (setLowHalf q (lowHalf p)) (highHalf p) = p := by
  apply BitVec.eq_of_getLsbD_eq
  intro i hi
  simp only [setHighHalf, setLowHalf, lowHalf, highHalf, BitVec.getLsbD_append, BitVec.getLsbD_extractLsb']
  by_cases h : i < 32
  · simp [h]
  · simp [h, show 32 + (i - 32) = i by omega]; omega

/-! ## Reads -/

/-- Nothing is drawn while the engine is idle (44_host_access.md R247). -/
@[simp] theorem drawnBits_idle (r : Reg) : drawnBits (modeBits .idle) r = 0 := rfl

/-- While the engine is idle a read is exact (R241). -/
theorem readValue_idle {s : State} (h : s.phase = .idle) (r : Reg) : s.readValue r = s.readExact r := by
  simp [State.readValue, h]

/-- Outside the drawn bits a read is exact, whatever the draw (R247). -/
theorem readValue_exact_bits (s : State) (r : Reg) :
    s.readValue r &&& ~~~(drawnBits (modeBits s.phase) r) =
      s.readExact r &&& ~~~(drawnBits (modeBits s.phase) r) := by
  unfold State.readValue
  split_ifs with h
  · rfl
  clear h
  generalize s.readExact r = a
  generalize Config.busyDraw s.draws = c
  generalize drawnBits (modeBits s.phase) r = m
  apply BitVec.eq_of_getLsbD_eq
  intro i hi
  simp only [BitVec.getLsbD_and, BitVec.getLsbD_or, BitVec.getLsbD_not]
  cases m.getLsbD i <;> cases a.getLsbD i <;> cases c.getLsbD i <;> simp

end Sys2Proof.Machine
end

