-- ==== Sys2Proof/Laws/Step.lean ====
section
/-!
SUPPORT. What a step can do, said once: the cases of `step`, of an engine step and of a host write. Later proofs take
their cases from here and do not unfold the step.
-/

namespace Sys2Proof.Machine

/-- Everything a step can do: the engine (when no event waits, or at its turn), a read, a write, a reset. -/
theorem step_cases {s t : State} (h : step s = .next t) :
    (s.events = [] ∧ s.engineStep = .next t) ∨
    (∃ rest, s.events = .engine :: rest ∧ State.engineStep { s with events := rest } = .next t) ∨
    (∃ w rest, s.events = .access (.read w) :: rest ∧ t = State.hostRead w { s with events := rest }) ∨
    (∃ w v rest, s.events = .access (.write w v) :: rest ∧ hostWrite w v { s with events := rest } = .next t) ∨
    (∃ rest, s.events = .reset :: rest ∧ t = State.resetEvent { s with events := rest }) := by
  unfold step at h
  split at h
  · next he => exact .inl ⟨he, h⟩
  · next a rest he =>
    cases a with
    | read w =>
      simp only [hostAccess, Host.Outcome.next.injEq] at h
      exact .inr (.inr (.inl ⟨w, rest, he, h.symm⟩))
    | write w v => exact .inr (.inr (.inr (.inl ⟨w, v, rest, he, h⟩)))
  · next rest he => exact .inr (.inl ⟨rest, he, h⟩)
  · next rest he =>
    simp only [Host.Outcome.next.injEq] at h
    exact .inr (.inr (.inr (.inr ⟨rest, he, h.symm⟩)))

/-- Everything an engine step can do, by phase. -/
theorem engineStep_cases {s t : State} (h : s.engineStep = .next t) :
    (s.phase = .idle ∧ t = s) ∨ (s.phase = .tIter ∧ t = s.tIterStep) ∨
    (s.phase = .rStart ∧ s.size ≠ 0 ∧ ∃ cr ci, coordR s.size.toNat s.x.toNat = some cr ∧
      coordI s.size.toNat s.y.toNat = some ci ∧ t = { s with etu := Etu.pointStart cr ci, phase := .rIter }) ∨
    (s.phase = .rIter ∧ t = s.rIterStep) ∨ (s.phase = .rEnd ∧ t = s.rEndStep) := by
  unfold State.engineStep at h
  split at h
  · next hp => simp only [Host.Outcome.next.injEq] at h; exact .inl ⟨hp, h.symm⟩
  · next hp => simp only [Host.Outcome.next.injEq] at h; exact .inr (.inl ⟨hp, h.symm⟩)
  · next hp =>
    unfold State.rStartStep at h
    split_ifs at h with hz
    split at h
    · next cr ci h1 h2 =>
      simp only [Host.Outcome.next.injEq] at h
      exact .inr (.inr (.inl ⟨hp, hz, cr, ci, h1, h2, h.symm⟩))
    · cases h
  · next hp => simp only [Host.Outcome.next.injEq] at h; exact .inr (.inr (.inr (.inl ⟨hp, h.symm⟩)))
  · next hp => simp only [Host.Outcome.next.injEq] at h; exact .inr (.inr (.inr (.inr ⟨hp, h.symm⟩)))

/-- Everything a write to CTRL can do. -/
theorem writeCtrl_cases {v : Word} {s t : State} (h : writeCtrl v s = .next t) :
    (∃ why, decode v = .illegal why ∧ t = s.reject .illegalWord) ∨ (∃ i, decode v = .command i ∧ exec i s = .next t) := by
  unfold writeCtrl at h
  split at h
  · next i hd => exact .inr ⟨i, hd, h⟩
  · next why hd =>
    simp only [Host.Outcome.next.injEq] at h
    exact .inl ⟨why, hd, h.symm⟩

/-- Everything a host write can do, by word index. -/
theorem hostWrite_cases {w : Index} {v : Word} {s t : State} (h : hostWrite w v s = .next t) :
    (w = 0 ∧ writeCtrl v s = .next t) ∨ (w = 1 ∧ t = s.writeStatus v) ∨
    (w = 4 ∧ t = { s with cr := setLowHalf s.cr v }) ∨ (w = 5 ∧ t = { s with cr := setHighHalf s.cr v }) ∨
    (w = 6 ∧ t = { s with ci := setLowHalf s.ci v }) ∨ (w = 7 ∧ t = { s with ci := setHighHalf s.ci v }) ∨
    t = s := by
  have hw : w = BitVec.ofNat 4 w.toNat := by simp
  have hlt : w.toNat < 16 := w.isLt
  generalize w.toNat = k at hw hlt
  subst hw
  interval_cases k <;>
    simp only [hostWrite, regAt, BitVec.toNat_ofNat, Nat.reducePow, Nat.reduceMod, Host.Outcome.next.injEq] at h <;>
    simp_all

/-- Every host write ends in a next state. -/
theorem hostWrite_next (w : Index) (v : Word) (s : State) : ∃ t, hostWrite w v s = .next t := by
  unfold hostWrite
  split <;> try exact ⟨_, rfl⟩
  unfold writeCtrl
  split
  · exact exec_next _ _
  · exact ⟨_, rfl⟩

end Sys2Proof.Machine
end

