-- ==== Sys2Proof/Laws/Engine.lean ====
section
/-!
SUPPORT. The engine's steps as records: one ITER with its finish, the T_ITER and R_ITER steps, and the three cases of
the R_END step.
-/

namespace Sys2Proof.Machine

/-- One ITER as a record: ERES is (escape, it) if the point finished, else as it was (41_escape_test.md R152, R155). -/
theorem iterate_eq (s : State) :
    s.iterate =
      { s with
        etu := s.etu.iter s.draws
        nf := s.nf || s.etu.nonFinite s.draws
        draws := s.draws + drawsPerIter
        esc := if (s.etu.iter s.draws).finished then (s.etu.iter s.draws).escape else s.esc
        count := if (s.etu.iter s.draws).finished then (s.etu.iter s.draws).it else s.count } := by
  simp only [State.iterate, State.finishPoint, Etu.finished, Bool.or_eq_true, beq_iff_eq]
  split_ifs <;> simp_all

/-- The T_ITER step (41_escape_test.md R159). -/
theorem tIterStep_eq (s : State) :
    s.tIterStep =
      if (s.etu.iter s.draws).finished then { s.iterate with phase := .idle, done := true } else s.iterate := by
  simp [State.tIterStep]

/-- The R_ITER step (43_sequencer.md R222). -/
theorem rIterStep_eq (s : State) :
    s.rIterStep = if (s.etu.iter s.draws).finished then { s.iterate with phase := .rEnd } else s.iterate := by
  simp [State.rIterStep]

theorem size_toNat_ne_zero {s : State} (h : s.size ≠ 0) : s.size.toNat ≠ 0 := by
  intro hz; exact h (BitVec.eq_of_toNat_eq (by simpa using hz))

/-- The R_END step of a position on the grid, its three cases (43_sequencer.md R223). -/
theorem rEndStep_eq {s : State} (hsz : s.size ≠ 0) (hy : s.y.toNat < s.size.toNat) :
    s.rEndStep =
      if s.x.toNat + 1 = s.size.toNat then
        if s.y.toNat + 1 = s.size.toNat then
          { s with bpk := s.bpk.packBit s.esc true, x := 0, y := s.size, phase := .idle, done := true }
        else { s with bpk := s.bpk.packBit s.esc true, x := 0, y := s.y + 1, phase := .rStart }
      else { s with bpk := s.bpk.packBit s.esc false, x := s.x + 1, phase := .rStart } := by
  have hs := size_toNat_ne_zero hsz
  have hlt := s.size.isLt
  have hy1 : (s.y + 1).toNat = s.y.toNat + 1 := by rw [BitVec.toNat_add]; simp; omega
  by_cases hx : s.x.toNat + 1 = s.size.toNat
  · have hl : s.lastColumn = true := by simp [State.lastColumn, hx]
    have hadv : State.advance { s with bpk := s.bpk.packBit s.esc s.lastColumn } =
        { s with bpk := s.bpk.packBit s.esc true, x := 0, y := s.y + 1 } := by
      simp [State.advance, State.lastColumn, hx]
    unfold State.rEndStep
    rw [hadv, if_pos hx]
    by_cases hy2 : s.y.toNat + 1 = s.size.toNat
    · have he : s.y + 1 = s.size := BitVec.eq_of_toNat_eq (by omega)
      simp only [he, hy2, if_true]
    · have he : s.y + 1 ≠ s.size := fun h => hy2 (by rw [← h, hy1])
      simp only [he, hy2, if_false]
  · have hadv : State.advance { s with bpk := s.bpk.packBit s.esc s.lastColumn } =
        { s with bpk := s.bpk.packBit s.esc false, x := s.x + 1 } := by
      have : (s.x.toNat + 1 == s.size.toNat) = false := by simpa using hx
      simp [State.advance, State.lastColumn, this]
    have he : s.y ≠ s.size := fun h => by rw [h] at hy; omega
    unfold State.rEndStep
    rw [hadv, if_neg hx]
    simp only [he, if_false]

end Sys2Proof.Machine
end

