-- ==== Sys2Proof/Laws/PerInstr.lean ====
section
/-!
SUPPORT. One statement made for every constructor of Instr: its encoding obeys the field rules of
spec/30_encoding.md R91 and R92, and selects one row of the table of R93.
-/

namespace Sys2Proof.Laws.EncodesLegal

/-- The word of `i` has well-formed fields, and its row in the table of R93 is the only one that selects it. -/
def Statement (i : Instr) : Prop :=
  (CommandFields.ofWord (encode i)).wf = true ∧
    (opcodeRows.filter fun r => r.selects (encode i)).map OpcodeRow.mnemonic = [i.mnemonic]

theorem nop : Statement .nop := by unfold Statement; decide

theorem run : Statement .run := by unfold Statement; decide

theorem test : Statement .test := by unfold Statement; decide

theorem pack (b l : Bool) : Statement (.pack b l) := by unfold Statement; cases b <;> cases l <;> decide

theorem clear : Statement .clear := by unfold Statement; decide

end Sys2Proof.Laws.EncodesLegal
end

