-- ==== Sys2Proof/Tests/Slice0.lean ====
section
/-!
SUPPORT. Tests of the model against spec/95_test_vectors.md and the rules, and one witness for each statement of
Certificates/Slice0/Obligations.lean that has hypotheses. Expected values are the spec's.
-/

namespace Sys2Proof.Tests
open Sys2Proof.Machine

/-! ## Well-formedness: a legal field tuple, and one ill-formed tuple for each check (R91, R92) -/

theorem test_wf_accepts_pack : (CommandFields.mk 3 0 1 1 0).wf = true := by decide

theorem test_wf_refuses_reserved_op :
    (CommandFields.mk 5 0 0 0 0).opDefined = false ∧ (CommandFields.mk 5 0 0 0 0).wf = false := by decide

theorem test_wf_refuses_low_reserved_bits :
    (CommandFields.mk 0 1 0 0 0).reservedZero = false ∧ (CommandFields.mk 0 1 0 0 0).wf = false := by decide

theorem test_wf_refuses_high_reserved_bits :
    (CommandFields.mk 3 0 0 0 1).reservedZero = false ∧ (CommandFields.mk 3 0 0 0 1).wf = false := by decide

theorem test_wf_refuses_pbit_on_run :
    (CommandFields.mk 1 0 1 0 0).packFieldsOnlyOnPack = false ∧ (CommandFields.mk 1 0 1 0 0).wf = false := by decide

theorem test_wf_refuses_plast_on_clear :
    (CommandFields.mk 4 0 0 1 0).packFieldsOnlyOnPack = false ∧ (CommandFields.mk 4 0 0 1 0).wf = false := by decide

/-! ## Decoding: words written out from R91 and R92, bits 31:10, PLAST, PBIT, bits 7:3, OP -/

theorem test_decode_nop : decode 0b0000000000000000000000_0_0_00000_000#32 = .command .nop := by decide

theorem test_decode_run : decode 0b0000000000000000000000_0_0_00000_001#32 = .command .run := by decide

theorem test_decode_test : decode 0b0000000000000000000000_0_0_00000_010#32 = .command .test := by decide

theorem test_decode_pack_pbit :
    decode 0b0000000000000000000000_0_1_00000_011#32 = .command (.pack true false) := by decide

theorem test_decode_pack_plast :
    decode 0b0000000000000000000000_1_0_00000_011#32 = .command (.pack false true) := by decide

theorem test_decode_clear : decode 0b0000000000000000000000_0_0_00000_100#32 = .command .clear := by decide

/-- The ILLEGAL words of 95_test_vectors.md section 6.1, with the rule each breaks. -/
theorem test_decode_illegal :
    [0x5#32, 0x6#32, 0x7#32, 0xFFFFFFFF#32].map decode = List.replicate 4 (.illegal .reservedOp) ∧
    [0x8#32, 0x83#32, 0x403#32, 0x80000001#32].map decode = List.replicate 4 (.illegal .reservedBits) ∧
    [0x101#32, 0x204#32, 0x100#32].map decode = List.replicate 3 (.illegal .packFieldOnOther) := by decide

theorem test_decodeTableWord :
    decodeTableWord 32 0x303 = some (.pack true true) ∧ decodeTableWord 8 0x303 = some (.pack false false) ∧
    decodeTableWord 32 5 = none := by decide

/-! ## The floating-point datapath: 95_test_vectors.md section 2 -/

theorem test_fadd :
    fadd 0 0x3FB999999999999A#64 0x3FC999999999999A#64 = 0x3FD3333333333334#64 ∧
    fadd 0 one 0x3CA0000000000000#64 = one ∧
    fadd 0 one 0x3CB8000000000000#64 = 0x3FF0000000000002#64 ∧
    fadd 0 (zeroOf true) (zeroOf true) = 0x8000000000000000#64 := by decide +kernel

theorem test_fsub :
    fsub 0 oneAndHalf oneAndHalf = 0 ∧ fsub 0 (zeroOf true) 0 = 0x8000000000000000#64 ∧ fsub 0 0 0 = 0 ∧
    fsub 0 0x4002000000000000#64 one = 0x3FF4000000000000#64 := by decide +kernel

theorem test_fmul :
    fmul 0 two 0x7FE1CCF385EBC8A0#64 = 0x7FF0000000000000#64 ∧
    fmul 0 0x0010000000000000#64 0x3FE0000000000000#64 = 0x0008000000000000#64 ∧
    fmul 0 0x0000000000000003#64 0x3FE0000000000000#64 = 0x0000000000000002#64 ∧
    fmul 0 0x80000000000007E8#64 two = 0x8000000000000FD0#64 ∧
    fmul 0 0x3FB999999999999A#64 0x3FB999999999999A#64 = 0x3F847AE147AE147C#64 := by decide +kernel

/-- The two groupings of R133 differ. -/
theorem test_fmul_grouping :
    fmul 0 (fmul 0 two 3) 0x3FE0000000000000#64 = 3 ∧ fmul 0 two (fmul 0 3 0x3FE0000000000000#64) = 4 := by
  decide +kernel

theorem test_fgt :
    fgt 0x4010000000000000#64 Config.threshold = false ∧ fgt 0x4010000000000001#64 Config.threshold = true ∧
    fgt 0x7FF8000000000000#64 Config.threshold = false ∧ fgt (infOf false) Config.threshold = true ∧
    fgt (zeroOf true) (zeroOf false) = false ∧ fgt Config.threshold 0x4020000000000000#64 = false ∧
    fgt 0x4020000000000000#64 Config.threshold = true := by decide +kernel

theorem test_i2f_fdiv :
    i2f 500 = some 0x407F400000000000#64 ∧ i2f 0 = some 0 ∧
    fdiv two 0x407F400000000000#64 = some 0x3F70624DD2F1A9FC#64 ∧
    fdiv 0x408F300000000000#64 0x407F400000000000#64 = some 0x3FFFEF9DB22D0E56#64 := by decide +kernel

theorem test_isfinite :
    isfinite 0x7FEFFFFFFFFFFFFF#64 = true ∧ isfinite 0x7FF0000000000000#64 = false ∧
    isfinite 0xFFF0000000000000#64 = false ∧ isfinite 0x7FF8000000000000#64 = false := by decide

/-! ## Points and coordinates: sections 3.1, 3.2, 5.1 -/

/-- Strictness (2.0, and -2.0 one unit further out), the early squares (2, 2), and an overflow. -/
theorem test_escapeTest :
    escapeTest 0 two two = ⟨true, 1, false⟩ ∧ escapeTest 0 two 0 = ⟨true, 2, false⟩ ∧
    escapeTest 0 0xC000000000000001#64 0 = ⟨true, 1, false⟩ ∧
    escapeTest 0 0x6974E718D7D7625A#64 0x6974E718D7D7625A#64 = ⟨true, 1, true⟩ := by decide +kernel

/-- At k = 2 the new zi of (+0, 2.0) is -14, from the new zr (section 3.2). -/
theorem test_iter_uses_new_zr :
    ((Etu.pointStart 0 two).iter 0 |>.iter 0).zi = 0xC02C000000000000#64 := by decide +kernel

theorem test_coordinates :
    coordR 500 1 = some 0xBFF7EF9DB22D0E56#64 ∧ coordR 500 374 = some 0xBF70624DD2F1AA00#64 ∧
    coordR 500 375 = some 0 ∧ coordI 500 249 = some 0xBF70624DD2F1AA00#64 ∧ coordI 500 250 = some 0 ∧
    coordI 500 500 = none := by decide +kernel

/-- checksum(1) (section 5.2) with its step count, and the point (7, 0) of the SIZE = 8 grid (section 1.4). -/
theorem test_checksum :
    checksum 1 = 0x80#8 ∧ runSteps 1 = 8 ∧ gridPoint 8 7 0 = some ⟨true, 5, false⟩ := by decide +kernel

/-! ## The packer: section 4.1 -/

theorem test_packBit_keep : (Bpk.mk 0 0x3F 6).packBit true false = ⟨0, 0x7F, 7⟩ := by decide

theorem test_packBit_flushes :
    (Bpk.mk 0 0x03 2).packBit true true = ⟨0xE0, 0, 0⟩ ∧ (Bpk.mk 0 0x7F 7).packBit true true = ⟨0xFF, 0, 0⟩ ∧
    (Bpk.mk 0xBF 0x7F 7).packBit true false = ⟨0x40, 0, 0⟩ ∧ (Bpk.mk 0 0x3F 6).packBit false true = ⟨0xFC, 0, 0⟩ := by
  decide

/-! ## Steps -/

/-- The next state of an outcome. -/
def nextOf (o : Host.Outcome State Fault Refusal) : Option State :=
  match o with
  | .next t => some t
  | .fault _ => none
  | .refused _ => none

/-- The state after `k` steps. -/
def stateAfter : Nat → State → Option State
  | 0, s => some s
  | k + 1, s => (nextOf (step s)).bind (stateAfter k)

theorem nextOf_eq {o : Host.Outcome State Fault Refusal} {t : State} (h : nextOf o = some t) : o = .next t := by
  cases o <;> simp_all [nextOf]

/-- The phases before each of `k` steps and after the last. -/
def phasesAlong : Nat → State → List Phase
  | 0, s => [s.phase]
  | k + 1, s => s.phase :: (((nextOf (step s)).map (phasesAlong k)).getD [])

/-- The block of a build of size `n`, right after reset, with the events that will come. -/
def block (n : BitVec 16) (es : List Event) : State := { State.reset with size := n, events := es }

/-- A TEST in progress on the point (cr, ci). -/
def testing (cr ci : F64) (es : List Event) : State :=
  { State.reset with cr := cr, ci := ci, etu := Etu.pointStart cr ci, phase := .tIter, events := es }

/-- A SIZE = 3 build whose RUN is about to pack the escaped point (2, 1) of section 1.3. -/
def packing (es : List Event) : State :=
  { State.reset with
    size := 3, phase := .rEnd, x := 2, y := 1, bpk := ⟨0xE0, 2, 2⟩, esc := false, count := 50, events := es,
    etu := { Etu.zero with it := 50 } }

theorem test_step_nop : step (State.reset.withFetchWord 32 0) = .next State.reset := rfl

theorem test_step_run_busy_status :
    (nextOf (step (State.reset.withFetchWord 32 1))).map State.statusWord = some 0x00000021#32 := by decide

theorem test_step_test_busy_status :
    (nextOf (step (State.reset.withFetchWord 32 2))).map State.statusWord = some 0x00000011#32 := by decide

theorem test_step_pack :
    (nextOf (step (State.reset.withFetchWord 32 0x303))).map State.bpk = some ⟨0x80, 0, 0⟩ := by decide

/-- CLEAR discards the partial byte 0x05 (section 4.2). -/
theorem test_step_clear :
    (nextOf (exec .clear { State.reset with bpk := ⟨0xBF, 0x05, 2⟩ })).map State.bpk = some ⟨0, 0, 0⟩ := by decide

/-- STATUS after a RUN dropped during a TEST, and after an illegal word then (section 6.2). -/
theorem test_rejections :
    (nextOf (exec .run (testing 0 0 []))).map State.statusWord = some 0x00000095#32 ∧
    (stateAfter 2 (testing 0 0 [.access (.write 0 1), .access (.write 0 7)])).map State.statusWord
      = some 0x00000055#32 := by decide

theorem test_operand_halves :
    (stateAfter 2 (block 500 [.access (.write 5 0x40000000), .access (.write 4 1)])).map State.cr
      = some 0x4000000000000001#64 := by decide

theorem test_reads_after_reset :
    (stateAfter 3 (block 8 [.access (.read 10), .access (.read 11), .access (.read 12)])).map State.responses
      = some [0x00320008#32, 0x4D420007#32, 0#32] := by decide +kernel

/-- Point (2, 1) of the SIZE = 3 grid is packed with a shift of 5 (section 1.3). -/
theorem test_row_end : (nextOf (packing []).engineStep).map (fun t => (t.bpk, t.x, t.y, t.phase))
    = some (⟨0x60, 0, 0⟩, 0, 2, .rStart) := by decide +kernel

/-- A script of R102 and R103, read and expanded: the triples of program P1. -/
theorem test_script :
    (readScript 0 "setcr 2.0 ; x".toList).map (fun ss => (ss.flatMap Stmt.expand).map Access.triple)
      = some [(true, 4, some 0#32), (true, 5, some 0x40000000#32)] := by decide +kernel

/-! ## Witnesses: the hypotheses of each statement met together -/

theorem witness_OpcodeRowsSelectTheCommand :
    decode 0x00000303#32 = .command (.pack true true) ∧
    0x00000303#32 &&& (OpcodeRow.mk "PACK" 0x00000003#32 0xFFFFFCFF#32).mask = 0x00000003#32 := by decide

theorem witness_IllegalWordsOnlySetErr :
    (∃ why, decode 0x00000005#32 = .illegal why) ∧
    (testing 0 0 [.access (.write 0 0x5)]).events = .access (.write 0 0x5) :: [] := ⟨⟨_, rfl⟩, rfl⟩

/-- StepRunsDecodedCommand: a CTRL write, another access, an engine turn, and no event waiting. -/
theorem witness_StepRunsDecodedCommand :
    (block 500 [.access (.write 1 2)]).events = .access (.write 1 2) :: [] ∧
    (packing [.engine]).events = .engine :: [] ∧ (packing []).events = [] ∧
    (block 500 [.access (.write 0 0x303)]).events = .access (.write 0 0x303) :: [] ∧
    decode 0x303 = .command (.pack true true) := by decide

/-- An idle state, for RunAccepted, TestAccepted, PackAccepted, ClearAcceptedOrRejected and RunComputesChecksum, and
busy ones, for ClearAcceptedOrRejected and BusyRejectsCommands. -/
theorem witness_idle_and_busy :
    State.reset.phase = .idle ∧ (block 1 []).size ≠ 0 ∧ (testing 0 0 []).phase ≠ .idle ∧ (packing []).phase ≠ .idle := by
  decide

/-- CommandFrame: an accepted and a rejected command answer a next state, and NOP does while busy. -/
theorem witness_CommandFrame :
    (∃ t, exec .run State.reset = .next t) ∧ (∃ t, exec .test State.reset = .next t) ∧
    (∃ t, exec (.pack true true) (packing []) = .next t) ∧ (∃ t, exec .nop (packing []) = .next t) :=
  ⟨⟨_, rfl⟩, ⟨_, rfl⟩, ⟨_, rfl⟩, ⟨_, rfl⟩⟩

/-- ReadsReturnTheRegister and StatusFieldRanges: a state of each MODE and each ECAUSE, with the STATUS values of
95_test_vectors.md section 6.2. -/
theorem witness_ReadsReturnTheRegister :
    State.reset.phase = .idle ∧ State.reset.ecause = .none ∧ State.reset.statusWord = 0 ∧
    (testing 0 0 []).phase = .tIter ∧ (testing 0 0 []).statusWord = 0x11 ∧
    (packing []).phase = .rEnd ∧ (packing []).statusWord = 0x21 ∧
    ((packing []).reject .whileBusy).ecause = .whileBusy ∧ ((packing []).reject .whileBusy).statusWord = 0xA5 ∧
    (State.reset.reject .illegalWord).ecause = .illegalWord ∧ (State.reset.reject .illegalWord).statusWord = 0x44 := by
  decide

theorem witness_OtherWritesIgnored :
    (2 : Index).toNat ∈ [2, 3, 8, 9, 10, 11, 12, 13, 14, 15] ∧
    (15 : Index).toNat ∈ [2, 3, 8, 9, 10, 11, 12, 13, 14, 15] := by decide

/-- OneResponsePerRead and StepTakesOneEvent: a step that takes a read, and one that takes another event. -/
theorem witness_OneResponsePerRead :
    (∃ t, step (block 500 [.access (.read 15)]) = .next t) ∧
    (∃ t, step (block 500 [.access (.write 4 1)]) = .next t) ∧
    (∀ (w : Index) (rest : List Event), (block 500 [.access (.write 4 1)]).events ≠ .access (.read w) :: rest) :=
  ⟨⟨_, rfl⟩, ⟨_, rfl⟩, by intro w rest; simp [block]⟩

theorem witness_BusyHostAccessLeavesTheEngine : (packing []).phase ≠ .idle := by decide

theorem witness_ReadsAfterReset :
    (testing two two [.reset, .access (.read 15)]).events = .reset :: .access (.read 15) :: [] := rfl

theorem witness_ResetSetsEverything : (testing two two [.reset, .engine]).events = .reset :: [.engine] := rfl

/-- WhoChangesDone, WhoChangesEres and SizeNeverChanges: the finishing step of (2, 2), and the three ways DONE falls. -/
theorem witness_WhoChangesDone :
    (∃ t, step (testing two two []) = .next t ∧ t.done = true ∧ t.esc ≠ (testing two two []).esc) ∧
    (∃ t, step { block 3 [.access (.write 0 1)] with done := true } = .next t ∧ t.done = false) ∧
    (∃ t, step { block 3 [.access (.write 1 2)] with done := true } = .next t ∧ t.done = false) ∧
    (∃ t, step { block 3 [.reset] with done := true } = .next t ∧ t.done = false) :=
  ⟨⟨_, rfl, by decide +kernel⟩, ⟨_, rfl, rfl⟩, ⟨_, rfl, rfl⟩, ⟨_, rfl, rfl⟩⟩

theorem witness_WhoChangesErr :
    (∃ t, step (block 3 [.access (.write 0 7)]) = .next t ∧ t.err = true) ∧
    (∃ t, step (testing 0 0 [.access (.write 0 1)]) = .next t ∧ t.err = true) ∧
    (∃ t, step { block 3 [.access (.write 1 4)] with err := true } = .next t ∧ t.err = false) :=
  ⟨⟨_, rfl, rfl⟩, ⟨_, rfl, rfl⟩, ⟨_, rfl, rfl⟩⟩

theorem witness_WhoChangesNf :
    (∃ t, step (testing 0x6974E718D7D7625A#64 0x6974E718D7D7625A#64 []) = .next t ∧ t.nf = true) ∧
    (∃ t, step { block 3 [.access (.write 1 8)] with nf := true } = .next t ∧ t.nf = false) :=
  ⟨⟨_, rfl, by decide +kernel⟩, ⟨_, rfl, rfl⟩⟩

theorem witness_WhoChangesTheOperands :
    (∃ t, step (block 3 [.access (.write 4 1)]) = .next t ∧ t.cr ≠ State.reset.cr) ∧
    (∃ t, step (block 3 [.access (.write 7 1)]) = .next t ∧ t.ci ≠ State.reset.ci) :=
  ⟨⟨_, rfl, by decide⟩, ⟨_, rfl, by decide⟩⟩

/-- WhoChangesThePacker and WhoChangesThePosition: the R_END step, a PACK, and a RUN. -/
theorem witness_WhoChangesThePacker :
    (∃ t, step (packing []) = .next t ∧ t.bpk ≠ (packing []).bpk ∧ t.x ≠ (packing []).x) ∧
    (∃ t, step (block 3 [.access (.write 0 0x103)]) = .next t ∧ t.bpk ≠ State.reset.bpk) ∧
    (∃ t, step { block 3 [.access (.write 0 1)] with bpk := ⟨1, 0, 0⟩, y := 3 } = .next t ∧ t.bpk ≠ ⟨1, 0, 0⟩ ∧
      t.y ≠ 3) :=
  ⟨⟨_, rfl, by decide +kernel⟩, ⟨_, rfl, by decide⟩, ⟨_, rfl, by decide⟩⟩

theorem witness_IdleBlockHolds :
    (block 3 []).phase = .idle ∧ (block 3 []).events = [] ∧ (block 3 [.engine]).events = .engine :: [] := by decide

/-- TestStep and RunIterationStep: a point that escapes, one that goes on, and the 50th iteration. -/
theorem witness_TestStep :
    (testing two two []).phase = .tIter ∧ ({ testing two two [] with phase := .rIter } : State).phase = .rIter ∧
    ((testing two two []).etu.iter 0).escape = true ∧ ((testing 0 0 []).etu.iter 0).escape = false ∧
    ({ Etu.zero with it := 49 }.iter 0).escape = false ∧ (({ Etu.zero with it := 49 } : Etu).it + 1).toNat = 50 := by
  decide +kernel

/-- StartStepTakesTheCoordinates: the last point of the largest build. -/
theorem witness_StartStepTakesTheCoordinates :
    (65534#16).toNat < (65535#16).toNat ∧ ({ block 65535 [] with phase := .rStart, x := 65534, y := 65534 } : State).phase
      = .rStart := by decide

/-- EndStepPacksAndAdvances: the last column of a row, the last point of the grid, and a column before the last. -/
theorem witness_EndStepPacksAndAdvances :
    (packing []).phase = .rEnd ∧ (packing []).size ≠ 0 ∧ (packing []).y.toNat < (packing []).size.toNat ∧
    (packing []).x.toNat = (packing []).size.toNat - 1 ∧
    ({ packing [] with y := 2 } : State).y.toNat + 1 = (packing []).size.toNat ∧
    ({ packing [] with x := 1 } : State).x.toNat ≠ (packing []).size.toNat - 1 := by decide

theorem witness_DoneRaceDependsOnOrder :
    (0x2#32).getLsbD 1 = true ∧ (testing two two []).phase ≠ .idle ∧
    ∃ t, (testing two two []).engineStep = .next t ∧ t.phase = .idle :=
  ⟨by decide, by decide, _, rfl, by decide +kernel⟩

/-- EveryStepKeepsTheInvariants, NoStopFromTheInvariants and EngineReachesIdle: the invariants hold in the middle of a
RUN, and a step is taken there. -/
theorem witness_EveryStepKeepsTheInvariants : (packing []).Inv ∧ ∃ t, step (packing []) = .next t :=
  ⟨by constructor <;> decide, _, rfl⟩

theorem witness_TestComputesEscapeTest :
    (block 3 []).phase = .idle ∧ 1 < (escapeTest 0 two 0).count.toNat := by decide +kernel

/-- RunIsExactUnderInterleaving: a SIZE = 1 RUN with a host read between its engine turns is first idle after its
ninth event. -/
theorem witness_RunIsExactUnderInterleaving :
    (∀ e ∈ [Event.engine, .access (.read 2)], e ≠ .reset) ∧
    phasesAlong 9 (block 1 [.engine, .access (.read 2)]).startRun
      = [.rStart, .rIter, .rIter, .rIter, .rIter, .rIter, .rIter, .rIter, .rEnd, .idle] := by decide +kernel

/-- RunComputesChecksum: a number of steps before the end of the SIZE = 1 RUN. -/
theorem witness_RunComputesChecksum :
    (block 1 []).phase = .idle ∧ (block 1 []).size ≠ 0 ∧ 7 < runSteps (block 1 []).size.toNat :=
  ⟨rfl, by decide, by rw [show (block 1 []).size.toNat = 1 from rfl, test_checksum.2.1]; decide⟩

theorem witness_RunLeavesNf :
    ∃ t, (block 1 []).startRun.engineSteps (runSteps 1) = .next t := by
  rw [test_checksum.2.1]
  have h : (nextOf ((block 1 []).startRun.engineSteps 8)).isSome = true := by decide +kernel
  obtain ⟨t, ht⟩ := Option.isSome_iff_exists.mp h
  exact ⟨t, nextOf_eq ht⟩

/-- GridPointsStayFinite and CoordinateRanges: the smallest build, the largest build's last point, and both zeros. -/
theorem witness_CoordinateRanges :
    (0 < 1 ∧ 1 ≤ 65535) ∧ (65534 < 65535 ∧ 65535 ≤ 65535) ∧ (375 < 500 ∧ 4 * 375 = 3 * 500) ∧
    (250 < 500 ∧ 2 * 250 = 500) := by decide

/-- PackedBitsAreMsbFirst: the shortest run, a padded one and a full byte. -/
theorem witness_PackedBitsAreMsbFirst :
    ([] : List Bool).length < 7 ∧ [true, true].length < 7 ∧ (List.replicate 7 true).length = 7 := by decide

theorem witness_ChecksumClosedForm : (7 : Nat) < 8 := by decide

theorem witness_RowOrderDoesNotMatter : [2, 0, 1].Perm (List.range 3) := by decide

/-- RoundToNearestTiesToEven: 3/2 units lies halfway between one and two units and goes to two; 2^1024 overflows. -/
theorem witness_RoundToNearestTiesToEven :
    0 < 2 ∧ isfinite (round 3 2 false) = true ∧ isfinite 1#64 = true ∧
    (val (round 3 2 false) * 2 - 3).natAbs = (val 1#64 * 2 - 3).natAbs ∧ val 1#64 ≠ val (round 3 2 false) ∧
    isfinite (round overflowUnits 1 false) = false := by decide +kernel

/-- DoublingIsExact and RoundIsExactOnBinary64: the largest value below 2^1023, and 2^1023. -/
theorem witness_DoublingIsExact :
    isfinite 0x7FDFFFFFFFFFFFFF#64 = true ∧ 2 * mag 0x7FDFFFFFFFFFFFFF#64 < overflowUnits ∧
    isfinite 0x7FE0000000000000#64 = true ∧ overflowUnits ≤ 2 * mag 0x7FE0000000000000#64 := by decide +kernel

/-- SpecialCases: each class of operands, and finite operands that are not two zeros of one sign. -/
theorem witness_SpecialCases :
    isNaN 0x7FF8000000000000#64 = true ∧ isInf (infOf true) = true ∧ isInf (infOf false) = true ∧
    signOf (infOf true) ≠ signOf (infOf false) ∧ isZero (zeroOf true) = true ∧ isZero (zeroOf false) = true ∧
    signOf (zeroOf true) ≠ signOf (zeroOf false) ∧ isfinite one = true ∧ isfinite two = true ∧
    isNaN one = false ∧ isZero one = false := by decide

theorem witness_ConversionIsExact : 131070 ≤ 131070 ∧ 131070 < 131071 := by decide

theorem witness_PlatformWordIndex : wordIndexAt 64 124 4 = some 15 ∧ wordIndexAt 64 128 4 = none := by decide

/-- PseudoInstructionsExpand: each script as the events of an idle block. -/
theorem witness_PseudoInstructionsExpand :
    (block 3 (scriptEvents [.setCr two])).events = scriptEvents [.setCr two] ∧
    (block 3 (scriptEvents [.setCi two])).events = scriptEvents [.setCi two] ∧
    (block 3 (scriptEvents [.w1c 14])).events = scriptEvents [.w1c 14] ∧
    (block 3 (scriptEvents [.testPt two 0 1])).phase = .idle ∧
    (block 3 (scriptEvents [.testPt two 0 1])).events = scriptEvents [.testPt two 0 1] := ⟨rfl, rfl, rfl, rfl, rfl⟩

/-- A POLL that reads busy, then not busy, is complete (R103). -/
theorem test_pollComplete : pollComplete [0x11, 0x02] = true ∧ pollComplete [0x02, 0x11] = false := by decide

end Sys2Proof.Tests
end

section
/-!
What one step can do, as an inductive relation with one constructor per kind of step. Every statement about who
changes what, and the invariant, is a case analysis over it.
-/

namespace Sys2Proof.Machine

/-! ### The R_END step, field by field (43_sequencer.md R223) -/

section
variable (s : State)

@[simp] theorem rEndStep_size : s.rEndStep.size = s.size := by simp only [State.rEndStep]; split <;> simp
@[simp] theorem rEndStep_err : s.rEndStep.err = s.err := by simp only [State.rEndStep]; split <;> simp
@[simp] theorem rEndStep_nf : s.rEndStep.nf = s.nf := by simp only [State.rEndStep]; split <;> simp
@[simp] theorem rEndStep_bpk : s.rEndStep.bpk = s.bpk.packBit s.esc s.lastColumn := by
  simp only [State.rEndStep]; split <;> simp
@[simp] theorem rEndStep_cr : s.rEndStep.cr = s.cr := by simp only [State.rEndStep]; split <;> simp
@[simp] theorem rEndStep_ci : s.rEndStep.ci = s.ci := by simp only [State.rEndStep]; split <;> simp
@[simp] theorem rEndStep_esc : s.rEndStep.esc = s.esc := by simp only [State.rEndStep]; split <;> simp
@[simp] theorem rEndStep_count : s.rEndStep.count = s.count := by simp only [State.rEndStep]; split <;> simp

/-- The R_END step sets DONE exactly when it ends the RUN, and never clears it. -/
theorem rEndStep_done : s.rEndStep.done = (s.done || s.rEndStep.phase == .idle) := by
  simp only [State.rEndStep]; split <;> simp

end

/-! ### One ITER, by whether it finishes the point (41_escape_test.md R155) -/

theorem iterate_of_goesOn {s : State} (hf : (s.etu.iter s.draws).finished = false) :
    s.iterate =
      { s with
        etu := s.etu.iter s.draws
        nf := s.nf || s.etu.nonFinite s.draws
        draws := s.draws + drawsPerIter } := by
  simp [iterate_eq, hf]

theorem iterate_of_finished {s : State} (hf : (s.etu.iter s.draws).finished = true) :
    s.iterate =
      { s with
        etu := s.etu.iter s.draws
        nf := s.nf || s.etu.nonFinite s.draws
        draws := s.draws + drawsPerIter
        esc := (s.etu.iter s.draws).escape
        count := (s.etu.iter s.draws).it } := by
  simp [iterate_eq, hf]

/-- A point that finishes without escaping has taken all 50 iterations. -/
theorem it_eq_of_finished {u : Etu} (hf : u.finished = true) (he : u.escape = false) : u.it.toNat = 50 := by
  simpa [Etu.finished, he, Config.iterMax] using hf

/-- ERES and the ETU after the ITER that finishes a point. -/
theorem iterate_eres_of_finished {s : State} (hf : (s.etu.iter s.draws).finished = true) :
    s.iterate.etu = s.etu.iter s.draws ∧ s.iterate.esc = s.iterate.etu.escape ∧ s.iterate.count = s.iterate.etu.it ∧
      (s.iterate.esc = false → s.iterate.count.toNat = 50) := by
  rw [iterate_of_finished hf]
  exact ⟨rfl, rfl, rfl, it_eq_of_finished hf⟩

/-! ### The kinds of step -/

/-- `StepEffect s t`: one step leads from `s` to `t`, with what stood first in the events and the condition on `s`
under which this kind of step happens. -/
inductive StepEffect (s : State) : State → Prop
  /-- The engine's turn while IDLE. -/
  | engineIdle {es : List Event} (turn : s.EngineTurn) (phase : s.phase = .idle) : StepEffect s { s with events := es }
  /-- An ITER after which the point goes on. -/
  | iterGoesOn {es : List Event} (turn : s.EngineTurn) (phase : s.iterating)
      (fin : (s.etu.iter s.draws).finished = false) : StepEffect s (State.iterate { s with events := es })
  /-- The ITER that ends a TEST. -/
  | testEnds {es : List Event} (turn : s.EngineTurn) (phase : s.phase = .tIter)
      (fin : (s.etu.iter s.draws).finished = true) :
      StepEffect s { State.iterate { s with events := es } with phase := .idle, done := true }
  /-- The ITER that finishes a point of a RUN. -/
  | pointEnds {es : List Event} (turn : s.EngineTurn) (phase : s.phase = .rIter)
      (fin : (s.etu.iter s.draws).finished = true) :
      StepEffect s { State.iterate { s with events := es } with phase := .rEnd }
  | rStart {es : List Event} {cr ci : F64} (turn : s.EngineTurn) (phase : s.phase = .rStart)
      (real : coordR s.size.toNat s.x.toNat = some cr) (imag : coordI s.size.toNat s.y.toNat = some ci) :
      StepEffect s { s with events := es, etu := Etu.pointStart cr ci, phase := .rIter }
  | rEnd {es : List Event} (turn : s.EngineTurn) (phase : s.phase = .rEnd) :
      StepEffect s (State.rEndStep { s with events := es })
  | read {w : Index} {es : List Event} (ev : s.events = .access (.read w) :: es) :
      StepEffect s (State.hostRead w { s with events := es })
  | illegal {v : Word} {es : List Event} {why : IllegalWord} (ev : s.events = .access (.write 0 v) :: es)
      (word : decode v = .illegal why) : StepEffect s (State.reject .illegalWord { s with events := es })
  /-- A command other than NOP while the block is busy. -/
  | dropped {v : Word} {es : List Event} {i : Instr} (ev : s.events = .access (.write 0 v) :: es)
      (word : decode v = .command i) (notNop : i ≠ .nop) (phase : s.phase ≠ .idle) :
      StepEffect s (State.reject .whileBusy { s with events := es })
  | run {v : Word} {es : List Event} (ev : s.events = .access (.write 0 v) :: es) (word : decode v = .command .run)
      (phase : s.phase = .idle) : StepEffect s (State.startRun { s with events := es })
  | test {v : Word} {es : List Event} (ev : s.events = .access (.write 0 v) :: es) (word : decode v = .command .test)
      (phase : s.phase = .idle) : StepEffect s (State.startTest { s with events := es })
  | pack {v : Word} {es : List Event} {b l : Bool} (ev : s.events = .access (.write 0 v) :: es)
      (word : decode v = .command (.pack b l)) (phase : s.phase = .idle) :
      StepEffect s { s with events := es, bpk := s.bpk.packBit b l }
  | clear {v : Word} {es : List Event} (ev : s.events = .access (.write 0 v) :: es)
      (word : decode v = .command .clear) (phase : s.phase = .idle) :
      StepEffect s (State.bpkClear { s with events := es })
  | writeStatus {v : Word} {es : List Event} (ev : s.events = .access (.write 1 v) :: es) :
      StepEffect s (State.writeStatus v { s with events := es })
  | writeCr {w : Index} {v : Word} {es : List Event} {p : F64} (ev : s.events = .access (.write w v) :: es)
      (half : (w = 4 ∧ p = setLowHalf s.cr v) ∨ (w = 5 ∧ p = setHighHalf s.cr v)) :
      StepEffect s { s with events := es, cr := p }
  | writeCi {w : Index} {v : Word} {es : List Event} {p : F64} (ev : s.events = .access (.write w v) :: es)
      (half : (w = 6 ∧ p = setLowHalf s.ci v) ∨ (w = 7 ∧ p = setHighHalf s.ci v)) :
      StepEffect s { s with events := es, ci := p }
  /-- A NOP, or a write of a word that ignores it. -/
  | ignored {w : Index} {v : Word} {es : List Event} (ev : s.events = .access (.write w v) :: es) :
      StepEffect s { s with events := es }
  | reset {es : List Event} (ev : s.events = .reset :: es) : StepEffect s (State.resetEvent { s with events := es })

namespace StepEffect
variable {s t : State} {es : List Event}

/-- An engine step is one of the first six kinds. -/
theorem of_engineStep (turn : s.EngineTurn) (h : State.engineStep { s with events := es } = .next t) :
    StepEffect s t := by
  obtain ⟨hp, rfl⟩ | ⟨hp, rfl⟩ | ⟨hp, -, cr, ci, hcr, hci, rfl⟩ | ⟨hp, rfl⟩ | ⟨hp, rfl⟩ := engineStep_cases h
  · exact .engineIdle turn hp
  · rw [tIterStep_eq]
    split_ifs with hf
    · exact .testEnds turn hp hf
    · exact .iterGoesOn turn (.inl hp) (by simpa using hf)
  · exact .rStart turn hp hcr hci
  · rw [rIterStep_eq]
    split_ifs with hf
    · exact .pointEnds turn hp hf
    · exact .iterGoesOn turn (.inr hp) (by simpa using hf)
  · exact .rEnd turn hp

theorem of_writeCtrl {v : Word} (ev : s.events = .access (.write 0 v) :: es)
    (h : writeCtrl v { s with events := es } = .next t) : StepEffect s t := by
  obtain ⟨why, hd, rfl⟩ | ⟨i, hd, h⟩ := writeCtrl_cases h
  · exact .illegal ev hd
  obtain ⟨-, rfl⟩ | ⟨hn, hp, rfl⟩ | ⟨hp, ⟨rfl, rfl⟩ | ⟨rfl, rfl⟩ | ⟨b, l, rfl, rfl⟩ | ⟨rfl, rfl⟩⟩ := exec_cases h
  · exact .ignored ev
  · exact .dropped ev hd hn hp
  · exact .run ev hd hp
  · exact .test ev hd hp
  · exact .pack ev hd hp
  · exact .clear ev hd hp

theorem of_hostWrite {w : Index} {v : Word} (ev : s.events = .access (.write w v) :: es)
    (h : hostWrite w v { s with events := es } = .next t) : StepEffect s t := by
  obtain ⟨rfl, h⟩ | ⟨rfl, rfl⟩ | ⟨rfl, rfl⟩ | ⟨rfl, rfl⟩ | ⟨rfl, rfl⟩ | ⟨rfl, rfl⟩ | rfl := hostWrite_cases h
  · exact of_writeCtrl ev h
  · exact .writeStatus ev
  · exact .writeCr ev (.inl ⟨rfl, rfl⟩)
  · exact .writeCr ev (.inr ⟨rfl, rfl⟩)
  · exact .writeCi ev (.inl ⟨rfl, rfl⟩)
  · exact .writeCi ev (.inr ⟨rfl, rfl⟩)
  · exact .ignored ev

/-- Every step is of one of these kinds. -/
theorem of_step (h : step s = .next t) : StepEffect s t := by
  obtain ⟨ev, h⟩ | ⟨es, ev, h⟩ | ⟨w, es, ev, rfl⟩ | ⟨w, v, es, ev, h⟩ | ⟨es, ev, rfl⟩ := step_cases h
  · exact of_engineStep (es := s.events) (.inl ev) h
  · exact of_engineStep (.inr ⟨es, ev⟩) h
  · exact .read ev
  · exact of_hostWrite ev h
  · exact .reset ev

end StepEffect

end Sys2Proof.Machine
end

section
/-! The invariants of 10_state.md R44: they hold at reset, and each kind of step keeps them. -/

namespace Sys2Proof.Machine

/-- Settles O39: each clause is a fact about the closed reset state. -/
theorem invariantsHoldAtReset : Obligations.InvariantsHoldAtReset := by
  unfold Obligations.InvariantsHoldAtReset
  constructor <;> decide

namespace State.Inv
variable {s : State}

/-! ### Host accesses and reset -/

theorem withEvents (h : s.Inv) (es : List Event) : State.Inv { s with events := es } := { h with }

theorem hostRead (h : s.Inv) (w : Index) : (s.hostRead w).Inv := { h with }

theorem reject (h : s.Inv) {c : Cause} (hc : c ≠ .none) : (s.reject c).Inv := { h with cause := by simp [hc] }

/-- A STATUS write clears ERR and ECAUSE together, by one bit (44_host_access.md R244). -/
theorem writeStatus (h : s.Inv) (v : Word) : (s.writeStatus v).Inv :=
  { h with
    doneIdle := fun hd => h.doneIdle (by simp_all)
    cause := by
      have hc := h.cause
      cases hv : v.getLsbD 2 <;> simp_all }

theorem resetEvent (h : s.Inv) : s.resetEvent.Inv :=
  { invariantsHoldAtReset with build := h.build, onGrid := by simp, offGrid := by simp }

theorem startRun (h : s.Inv) : s.startRun.Inv where
  build := h.build
  packed := by simp [Bpk.zero]
  counter := by simpa using h.counter.1
  onGrid _ := by simpa using Nat.pos_of_ne_zero (size_toNat_ne_zero h.build)
  offGrid := by simp
  rowStart := by simp [Bpk.zero]
  result := h.result
  doneIdle := by simp
  cause := h.cause

theorem startTest (h : s.Inv) (hp : s.phase = .idle) : s.startTest.Inv :=
  { h with
    counter := by simp
    onGrid := by simp
    offGrid := fun _ => h.offGrid (by simp [hp])
    rowStart := by simp
    doneIdle := by simp }

theorem packBit (h : s.Inv) (hp : s.phase = .idle) (b l : Bool) : State.Inv { s with bpk := s.bpk.packBit b l } :=
  { h with
    packed := packBit_packed h.packed
    rowStart := by simp [hp] }

theorem bpkClear (h : s.Inv) (hp : s.phase = .idle) : s.bpkClear.Inv :=
  { h with
    packed := by simp [Bpk.zero]
    rowStart := by simp [hp] }

/-! ### Engine steps -/

/-- The R_START step: the counter starts at 0, and the position stays (43_sequencer.md R221). -/
theorem rStart (h : s.Inv) (hp : s.phase = .rStart) (cr ci : F64) :
    State.Inv { s with etu := Etu.pointStart cr ci, phase := .rIter } :=
  { h with
    counter := by simp
    onGrid := fun _ => h.onGrid (.inl hp)
    offGrid := by simp
    rowStart := fun _ => h.rowStart (.inl hp)
    doneIdle := fun hd => by simpa [hp] using h.doneIdle hd }

/-- The counter after an ITER of a point in work. -/
theorem iter_it_toNat (h : s.Inv) (hp : s.iterating) : (s.etu.iter s.draws).it.toNat = s.etu.it.toNat + 1 := by
  have hlt := h.counter.2 hp
  simp [BitVec.toNat_add]
  omega

/-- An ITER that does not finish the point leaves the counter below 50 and ERES alone (41_escape_test.md R155). -/
theorem iterGoesOn (h : s.Inv) (hp : s.iterating) (hf : (s.etu.iter s.draws).finished = false) : s.iterate.Inv := by
  have hit := h.iter_it_toNat hp
  have hlt := h.counter.2 hp
  have hne : (s.etu.iter s.draws).it.toNat ≠ 50 := by
    simp only [Etu.finished, Config.iterMax, Bool.or_eq_false_iff, beq_eq_false_iff_ne] at hf
    exact hf.2
  rw [iterate_of_goesOn hf]
  exact { h with counter := ⟨by simp only; omega, fun _ => by simp only; omega⟩ }

/-- The counter and the escape flag at the finish are what ERES may hold: 1 to 50, and 50 without an escape
(41_escape_test.md R155). -/
theorem iter_it_of_finished (h : s.Inv) (hp : s.iterating) (hf : (s.etu.iter s.draws).finished = true) :
    1 ≤ (s.etu.iter s.draws).it.toNat ∧ (s.etu.iter s.draws).it.toNat ≤ 50 ∧
      ((s.etu.iter s.draws).escape = false → (s.etu.iter s.draws).it.toNat = 50) := by
  have hit := h.iter_it_toNat hp
  have hlt := h.counter.2 hp
  exact ⟨by omega, by omega, it_eq_of_finished hf⟩

/-- The ITER that ends a TEST (41_escape_test.md R159). -/
theorem testEnds (h : s.Inv) (hp : s.phase = .tIter) (hf : (s.etu.iter s.draws).finished = true) :
    State.Inv { s.iterate with phase := .idle, done := true } := by
  obtain ⟨hpos, hle, hesc⟩ := h.iter_it_of_finished (.inl hp) hf
  rw [iterate_of_finished hf]
  exact
    { h with
      counter := ⟨hle, by simp⟩
      onGrid := by simp
      offGrid := fun _ => h.offGrid (by simp [hp])
      rowStart := by simp
      result := .inr ⟨hpos, hle, hesc⟩
      doneIdle := fun _ => rfl }

/-- The ITER that finishes a point of a RUN (43_sequencer.md R222). -/
theorem pointEnds (h : s.Inv) (hp : s.phase = .rIter) (hf : (s.etu.iter s.draws).finished = true) :
    State.Inv { s.iterate with phase := .rEnd } := by
  obtain ⟨hpos, hle, hesc⟩ := h.iter_it_of_finished (.inr hp) hf
  rw [iterate_of_finished hf]
  exact
    { h with
      counter := ⟨hle, by simp⟩
      onGrid := fun _ => h.onGrid (.inr (.inl hp))
      offGrid := by simp
      rowStart := fun _ => h.rowStart (.inr (.inl hp))
      result := .inr ⟨hpos, hle, hesc⟩
      doneIdle := fun hd => by simpa [hp] using h.doneIdle hd }

/-- The R_END step: a bit more in the packer for a column more, none after the last column, and the position on the
grid until the last row is done (42_bit_packer.md R189, 43_sequencer.md R223). -/
theorem rEnd (h : s.Inv) (hp : s.phase = .rEnd) : s.rEndStep.Inv := by
  obtain ⟨hx, hy⟩ := h.onGrid (.inr (.inr hp))
  have hrow := h.rowStart (.inr (.inr hp))
  have hsz := s.size.isLt
  have hdone : s.done = true → Phase.rStart = .idle := fun hd => by simpa [hp] using h.doneIdle hd
  rw [rEndStep_eq h.build hy]
  split_ifs with hcol hrowEnd
  · exact
      { h with
        packed := packBit_packed h.packed
        counter := ⟨h.counter.1, by simp⟩
        onGrid := by simp
        offGrid := by simp
        rowStart := by simp
        doneIdle := fun _ => rfl }
  · have hy1 : (s.y + 1).toNat = s.y.toNat + 1 := by simp [BitVec.toNat_add]; omega
    exact
      { h with
        packed := packBit_packed h.packed
        counter := ⟨h.counter.1, by simp⟩
        onGrid := fun _ => ⟨by simp; omega, by simp only [hy1]; omega⟩
        offGrid := by simp
        rowStart := fun _ => by simp [packBit_bitNum]
        doneIdle := hdone }
  · have hx1 : (s.x + 1).toNat = s.x.toNat + 1 := by simp [BitVec.toNat_add]; omega
    exact
      { h with
        packed := packBit_packed h.packed
        counter := ⟨h.counter.1, by simp⟩
        onGrid := fun _ => ⟨by simp only [hx1]; omega, hy⟩
        offGrid := by simp
        rowStart := fun _ => by
          simp only [packBit_bitNum, hx1, Bool.false_eq_true, or_false]
          split <;> omega
        doneIdle := hdone }

/-! ### Every step -/

theorem stepEffect {t : State} (h : s.Inv) (e : StepEffect s t) : t.Inv := by
  cases e with
  | engineIdle | ignored => exact h.withEvents _
  | iterGoesOn _ hp hf => exact (h.withEvents _).iterGoesOn hp hf
  | testEnds _ hp hf => exact (h.withEvents _).testEnds hp hf
  | pointEnds _ hp hf => exact (h.withEvents _).pointEnds hp hf
  | rStart _ hp => exact (h.rStart hp _ _).withEvents _
  | rEnd _ hp => exact (h.withEvents _).rEnd hp
  | read => exact (h.withEvents _).hostRead _
  | illegal | dropped => exact (h.withEvents _).reject (by simp)
  | run => exact (h.withEvents _).startRun
  | test _ _ hp => exact (h.withEvents _).startTest hp
  | pack _ _ hp => exact (h.packBit hp _ _).withEvents _
  | clear _ _ hp => exact (h.withEvents _).bpkClear hp
  | writeStatus => exact (h.withEvents _).writeStatus _
  | writeCr | writeCi => exact { h with }
  | reset => exact (h.withEvents _).resetEvent

end State.Inv

/-- Settles O40, by the kind of step. -/
theorem everyStepKeepsTheInvariants : Obligations.EveryStepKeepsTheInvariants := by
  unfold Obligations.EveryStepKeepsTheInvariants
  exact fun _ _ h hs => h.stepEffect (.of_step hs)

end Sys2Proof.Machine
end

section
/-!
Who changes what (10_state.md R25 to R36, R40, R41): for each field, the kinds of step that change it. Every other kind
leaves it, by the field lemmas of the updates.
-/

namespace Sys2Proof.Machine

namespace StepEffect
variable {s t : State}

theorem size_eq (e : StepEffect s t) : t.size = s.size := by
  cases e <;> simp

/-! ### The flags of STATUS -/

theorem of_done_rises (e : StepEffect s t) (h0 : s.done = false) (h1 : t.done = true) :
    s.EngineTurn ∧ (s.phase = .tIter ∨ s.phase = .rEnd) ∧ t.phase = .idle := by
  cases e with
  | testEnds turn hp => exact ⟨turn, .inl hp, rfl⟩
  | rEnd turn hp => exact ⟨turn, .inr hp, by simpa [rEndStep_done, h0] using h1⟩
  | _ => simp [h0] at h1

theorem of_done_falls (e : StepEffect s t) (h0 : s.done = true) (h1 : t.done = false) :
    (∃ v rest, s.events = .access (.write 0 v) :: rest ∧ s.phase = .idle ∧
      (decode v = .command .run ∨ decode v = .command .test)) ∨
    (∃ v rest, s.events = .access (.write 1 v) :: rest ∧ v.getLsbD 1 = true) ∨
    (∃ rest, s.events = .reset :: rest) := by
  cases e with
  | run ev hd hp => exact .inl ⟨_, _, ev, hp, .inl hd⟩
  | test ev hd hp => exact .inl ⟨_, _, ev, hp, .inr hd⟩
  | writeStatus ev => exact .inr (.inl ⟨_, _, ev, by simpa [h0] using h1⟩)
  | reset ev => exact .inr (.inr ⟨_, ev⟩)
  | rEnd => simp [rEndStep_done, h0] at h1
  | _ => simp [h0] at h1

theorem of_err_rises (e : StepEffect s t) (h0 : s.err = false) (h1 : t.err = true) :
    ∃ v rest, s.events = .access (.write 0 v) :: rest ∧
      ((∃ why, decode v = .illegal why) ∨ (s.phase ≠ .idle ∧ ∃ i, i ≠ .nop ∧ decode v = .command i)) := by
  cases e with
  | illegal ev hd => exact ⟨_, _, ev, .inl ⟨_, hd⟩⟩
  | dropped ev hd hn hp => exact ⟨_, _, ev, .inr ⟨hp, _, hn, hd⟩⟩
  | _ => simp [h0] at h1

theorem of_err_falls (e : StepEffect s t) (h0 : s.err = true) (h1 : t.err = false) :
    (∃ v rest, s.events = .access (.write 1 v) :: rest ∧ v.getLsbD 2 = true) ∨ (∃ rest, s.events = .reset :: rest) := by
  cases e with
  | writeStatus ev => exact .inl ⟨_, _, ev, by simpa [h0] using h1⟩
  | reset ev => exact .inr ⟨_, ev⟩
  | _ => simp [h0] at h1

theorem of_nf_rises (e : StepEffect s t) (h0 : s.nf = false) (h1 : t.nf = true) :
    s.EngineTurn ∧ (s.phase = .tIter ∨ s.phase = .rIter) ∧ s.etu.nonFinite s.draws = true := by
  cases e with
  | iterGoesOn turn hp => exact ⟨turn, hp, by simpa [h0] using h1⟩
  | testEnds turn hp => exact ⟨turn, .inl hp, by simpa [h0] using h1⟩
  | pointEnds turn hp => exact ⟨turn, .inr hp, by simpa [h0] using h1⟩
  | _ => simp [h0] at h1

theorem of_nf_falls (e : StepEffect s t) (h0 : s.nf = true) (h1 : t.nf = false) :
    (∃ v rest, s.events = .access (.write 1 v) :: rest ∧ v.getLsbD 3 = true) ∨ (∃ rest, s.events = .reset :: rest) := by
  cases e with
  | writeStatus ev => exact .inl ⟨_, _, ev, by simpa [h0] using h1⟩
  | reset ev => exact .inr ⟨_, ev⟩
  | _ => simp [h0] at h1

/-! ### Operands, packer, position and result -/

theorem of_cr_ne (e : StepEffect s t) (hne : t.cr ≠ s.cr) :
    (∃ w v rest, s.events = .access (.write w v) :: rest ∧ (w = 4 ∨ w = 5)) ∨ (∃ rest, s.events = .reset :: rest) := by
  cases e with
  | writeCr ev half => exact .inl ⟨_, _, _, ev, half.imp And.left And.left⟩
  | reset ev => exact .inr ⟨_, ev⟩
  | _ => simp at hne

theorem of_ci_ne (e : StepEffect s t) (hne : t.ci ≠ s.ci) :
    (∃ w v rest, s.events = .access (.write w v) :: rest ∧ (w = 6 ∨ w = 7)) ∨ (∃ rest, s.events = .reset :: rest) := by
  cases e with
  | writeCi ev half => exact .inl ⟨_, _, _, ev, half.imp And.left And.left⟩
  | reset ev => exact .inr ⟨_, ev⟩
  | _ => simp at hne

theorem of_bpk_ne (e : StepEffect s t) (hne : t.bpk ≠ s.bpk) :
    (s.EngineTurn ∧ s.phase = .rEnd ∧ t.bpk = s.bpk.packBit s.esc s.lastColumn) ∨
    (∃ v rest, s.events = .access (.write 0 v) :: rest ∧ s.phase = .idle ∧
      (((decode v = .command .run ∨ decode v = .command .clear) ∧ t.bpk = ⟨0, 0, 0⟩) ∨
        ∃ b l, decode v = .command (.pack b l) ∧ t.bpk = s.bpk.packBit b l)) ∨
    (∃ rest, s.events = .reset :: rest) := by
  cases e with
  | rEnd turn hp => exact .inl ⟨turn, hp, rEndStep_bpk _⟩
  | run ev hd hp => exact .inr (.inl ⟨_, _, ev, hp, .inl ⟨.inl hd, rfl⟩⟩)
  | clear ev hd hp => exact .inr (.inl ⟨_, _, ev, hp, .inl ⟨.inr hd, rfl⟩⟩)
  | pack ev hd hp => exact .inr (.inl ⟨_, _, ev, hp, .inr ⟨_, _, hd, rfl⟩⟩)
  | reset ev => exact .inr (.inr ⟨_, ev⟩)
  | _ => simp at hne

theorem of_position_ne (e : StepEffect s t) (hne : t.x ≠ s.x ∨ t.y ≠ s.y) :
    (s.EngineTurn ∧ s.phase = .rEnd) ∨
    (∃ v rest, s.events = .access (.write 0 v) :: rest ∧ s.phase = .idle ∧ decode v = .command .run) ∨
    (∃ rest, s.events = .reset :: rest) := by
  cases e with
  | rEnd turn hp => exact .inl ⟨turn, hp⟩
  | run ev hd hp => exact .inr (.inl ⟨_, _, ev, hp, hd⟩)
  | reset ev => exact .inr (.inr ⟨_, ev⟩)
  | _ => simp at hne

theorem of_eres_ne (e : StepEffect s t) (hne : t.esc ≠ s.esc ∨ t.count ≠ s.count) :
    (s.EngineTurn ∧ (s.phase = .tIter ∨ s.phase = .rIter) ∧ t.etu = s.etu.iter s.draws ∧ t.esc = t.etu.escape ∧
      t.count = t.etu.it ∧ (t.esc = false → t.count.toNat = 50)) ∨
    (∃ rest, s.events = .reset :: rest) := by
  cases e with
  | testEnds turn hp hf => exact .inl ⟨turn, .inl hp, iterate_eres_of_finished hf⟩
  | pointEnds turn hp hf => exact .inl ⟨turn, .inr hp, iterate_eres_of_finished hf⟩
  | reset ev => exact .inr ⟨_, ev⟩
  | @iterGoesOn es _ _ hf =>
    rw [iterate_of_goesOn (s := { s with events := es }) hf] at hne
    simp at hne
  | _ => simp at hne

end StepEffect

/-- Settles O24, by the kinds of step that raise and that clear DONE. -/
theorem whoChangesDone : Obligations.WhoChangesDone := by
  unfold Obligations.WhoChangesDone
  exact fun _ _ h => ⟨(StepEffect.of_step h).of_done_rises, (StepEffect.of_step h).of_done_falls, rfl⟩

/-- Settles O25, by the kinds of step that raise and that clear ERR. -/
theorem whoChangesErr : Obligations.WhoChangesErr := by
  unfold Obligations.WhoChangesErr
  exact fun _ _ h => ⟨(StepEffect.of_step h).of_err_rises, (StepEffect.of_step h).of_err_falls⟩

/-- Settles O26, by the kinds of step that raise and that clear NF. -/
theorem whoChangesNf : Obligations.WhoChangesNf := by
  unfold Obligations.WhoChangesNf
  exact fun _ _ h => ⟨(StepEffect.of_step h).of_nf_rises, (StepEffect.of_step h).of_nf_falls⟩

/-- Settles O27, by the kinds of step that change CR and CI. -/
theorem whoChangesTheOperands : Obligations.WhoChangesTheOperands := by
  unfold Obligations.WhoChangesTheOperands
  exact fun _ _ h => ⟨(StepEffect.of_step h).of_cr_ne, (StepEffect.of_step h).of_ci_ne⟩

/-- Settles O28, by the kinds of step that change the packer. -/
theorem whoChangesThePacker : Obligations.WhoChangesThePacker := by
  unfold Obligations.WhoChangesThePacker
  exact fun _ _ h => (StepEffect.of_step h).of_bpk_ne

/-- Settles O29, by the kinds of step that move the position. -/
theorem whoChangesThePosition : Obligations.WhoChangesThePosition := by
  unfold Obligations.WhoChangesThePosition
  exact fun _ _ h => (StepEffect.of_step h).of_position_ne

/-- Settles O30, by the kinds of step that write ERES. -/
theorem whoChangesEres : Obligations.WhoChangesEres := by
  unfold Obligations.WhoChangesEres
  exact fun _ _ h => (StepEffect.of_step h).of_eres_ne

/-- Settles O31: no kind of step touches SIZE. -/
theorem sizeNeverChanges : Obligations.SizeNeverChanges := by
  unfold Obligations.SizeNeverChanges
  exact fun _ _ h => (StepEffect.of_step h).size_eq

end Sys2Proof.Machine
end

section
/-! One step and the event it takes, and the STATUS word field by field. -/

namespace Sys2Proof.Machine

/-! ### The step, by the event that stands first (44_host_access.md R240) -/

section
variable {s : State} {es : List Event}

theorem step_access {a : Access} (h : s.events = .access a :: es) : step s = hostAccess a { s with events := es } := by
  simp [step, h]

theorem step_engine (h : s.events = .engine :: es) : step s = State.engineStep { s with events := es } := by
  simp [step, h]

theorem step_nil (h : s.events = []) : step s = s.engineStep := by
  simp [step, h]

/-- A CTRL write of a legal word is the meaning of its command (44_host_access.md R243). -/
theorem step_ctrl {v : Word} {i : Instr} (h : s.events = .access (.write 0 v) :: es) (hd : decode v = .command i) :
    step s = exec i { s with events := es } := by
  rw [step_access h]
  simp [hostAccess, hostWrite, regAt, writeCtrl, hd]

end

theorem decode_encode (i : Instr) : decode (encode i) = .command i := by
  cases i with
  | pack b l => cases b <;> cases l <;> decide
  | _ => decide

theorem tableWord_toNat (v : Word) : tableWord 32 v.toNat = v := by
  rw [tableWord, Nat.mod_eq_of_lt v.isLt, BitVec.ofNat_toNat, BitVec.setWidth_eq]

theorem step_withFetchWord (s : State) (i : Instr) : step (s.withFetchWord 32 (encode i).toNat) = exec i s := by
  have ev : (s.withFetchWord 32 (encode i).toNat).events = .access (.write 0 (encode i)) :: s.events := by
    simp [State.withFetchWord, tableWord_toNat]
  exact step_ctrl ev (decode_encode i)

/-- Settles O5, clause by clause, from the equations of `step`. -/
theorem stepRunsDecodedCommand : Obligations.StepRunsDecodedCommand := by
  unfold Obligations.StepRunsDecodedCommand
  exact ⟨fun _ _ _ => step_access, fun _ _ _ => ⟨rfl, rfl⟩, fun _ _ _ _ => step_ctrl, fun _ _ => step_engine,
    fun _ => step_nil, step_withFetchWord⟩

/-! ### The STATUS word (30_encoding.md R101) -/

section
variable (s : State)

/-- Bit `i` of STATUS, counted within the field that holds it. -/
theorem statusWord_getLsbD (i : Nat) (hi : i < 32) :
    s.statusWord.getLsbD i =
      if i < 1 then (BitVec.ofBool s.busy).getLsbD i
      else if i - 1 < 1 then (BitVec.ofBool s.done).getLsbD (i - 1)
      else if i - 1 - 1 < 1 then (BitVec.ofBool s.err).getLsbD (i - 1 - 1)
      else if i - 1 - 1 - 1 < 1 then (BitVec.ofBool s.nf).getLsbD (i - 1 - 1 - 1)
      else if i - 1 - 1 - 1 - 1 < 2 then (modeBits s.phase).getLsbD (i - 1 - 1 - 1 - 1)
      else (causeBits s.ecause).getLsbD (i - 1 - 1 - 1 - 1 - 2) := by
  simp only [State.statusWord, BitVec.getLsbD_setWidth, BitVec.getLsbD_append, hi, decide_true, Bool.true_and]

theorem statusWord_busy : s.statusWord.getLsbD 0 = s.busy := by
  rw [statusWord_getLsbD s 0 (by decide)]; simp

theorem statusWord_done : s.statusWord.getLsbD 1 = s.done := by
  rw [statusWord_getLsbD s 1 (by decide)]; simp

theorem statusWord_err : s.statusWord.getLsbD 2 = s.err := by
  rw [statusWord_getLsbD s 2 (by decide)]; simp

theorem statusWord_nf : s.statusWord.getLsbD 3 = s.nf := by
  rw [statusWord_getLsbD s 3 (by decide)]; simp

theorem statusWord_mode : s.statusWord.extractLsb' 4 2 = modeBits s.phase := by
  apply BitVec.eq_of_getLsbD_eq
  intro i hi
  rw [BitVec.getLsbD_extractLsb', statusWord_getLsbD s (4 + i) (by omega)]
  simp [hi]

theorem statusWord_cause : s.statusWord.extractLsb' 6 2 = causeBits s.ecause := by
  apply BitVec.eq_of_getLsbD_eq
  intro i hi
  rw [BitVec.getLsbD_extractLsb', statusWord_getLsbD s (6 + i) (by omega)]
  simp [hi, show 1 < 2 + i by omega]

theorem statusWord_high : s.statusWord.extractLsb' 8 24 = 0#24 := by
  apply BitVec.eq_of_getLsbD_eq
  intro i hi
  simp [State.statusWord]

theorem statusWord_mode_toNat : s.statusWord.toNat / 16 % 4 = (modeBits s.phase).toNat := by
  rw [← statusWord_mode, BitVec.extractLsb'_toNat, Nat.shiftRight_eq_div_pow]

theorem statusWord_cause_toNat : s.statusWord.toNat / 64 % 4 = (causeBits s.ecause).toNat := by
  rw [← statusWord_cause, BitVec.extractLsb'_toNat, Nat.shiftRight_eq_div_pow]

end

theorem modeBits_ne_three (p : Phase) : modeBits p ≠ 3#2 := by
  cases p <;> decide

theorem causeBits_ne_three (c : Cause) : causeBits c ≠ 3#2 := by
  cases c <;> decide

/-- Settles O23: each field of STATUS is its bits, and the codes are those of MODE and ECAUSE. -/
theorem statusFieldRanges : Obligations.StatusFieldRanges := by
  unfold Obligations.StatusFieldRanges
  intro s
  rw [statusWord_busy, statusWord_mode, statusWord_cause, statusWord_mode_toNat, statusWord_cause_toNat]
  refine ⟨busy_eq_true s, statusWord_done s, statusWord_err s, statusWord_nf s, ?_, ?_, ?_, ?_, ?_, ?_,
    modeBits_ne_three _, causeBits_ne_three _, statusWord_high s⟩
  · intro hp; rw [hp]; rfl
  · intro hp; rw [hp]; rfl
  · rintro (hp | hp | hp) <;> rw [hp] <;> rfl
  · intro hc; rw [hc]; rfl
  · intro hc; rw [hc]; rfl
  · intro hc; rw [hc]; rfl

end Sys2Proof.Machine
end

section
/-!
What host accesses and commands leave unchanged (20_memory.md R60, R69, R73, R80), and the platform's word index (R61).
-/

namespace Sys2Proof.Machine

/-! ### The frame of the commands -/

/-- Settles O13, by what a command can do. -/
theorem commandFrame : Obligations.CommandFrame := by
  unfold Obligations.CommandFrame
  intro i s t h
  obtain ⟨rfl, rfl⟩ | ⟨hn, hp, rfl⟩ | ⟨hp, ⟨rfl, rfl⟩ | ⟨rfl, rfl⟩ | ⟨b, l, rfl, rfl⟩ | ⟨rfl, rfl⟩⟩ := exec_cases h
  · simp
  · simp [hn, hp]
  · simp [hp]
  · simp [hp]
  · simp [hp]
  · simp [hp]

/-! ### The events and the responses (44_host_access.md R240, R241) -/

theorem engineStep_record {s t : State} (h : s.engineStep = .next t) :
    t.events = s.events ∧ t.responses = s.responses := by
  obtain ⟨-, rfl⟩ | ⟨-, rfl⟩ | ⟨-, -, _, _, -, -, rfl⟩ | ⟨-, rfl⟩ | ⟨-, rfl⟩ := engineStep_cases h
  · exact ⟨rfl, rfl⟩
  · rw [tIterStep_eq]; split <;> simp
  · exact ⟨rfl, rfl⟩
  · rw [rIterStep_eq]; split <;> simp
  · simp only [State.rEndStep]; split <;> simp

theorem hostWrite_record {w : Index} {v : Word} {s t : State} (h : hostWrite w v s = .next t) :
    t.events = s.events ∧ t.responses = s.responses := by
  obtain ⟨rfl, h⟩ | ⟨-, rfl⟩ | ⟨-, rfl⟩ | ⟨-, rfl⟩ | ⟨-, rfl⟩ | ⟨-, rfl⟩ | rfl := hostWrite_cases h
  · obtain ⟨-, -, rfl⟩ | ⟨i, -, h⟩ := writeCtrl_cases h
    · exact ⟨rfl, rfl⟩
    · obtain ⟨⟨-, -, -, -, -, -, hev, hresp, -⟩, -⟩ := commandFrame i s t h
      exact ⟨hev, hresp⟩
  all_goals exact ⟨rfl, rfl⟩

/-- Settles O18, by the kind of the event taken. -/
theorem oneResponsePerRead : Obligations.OneResponsePerRead := by
  unfold Obligations.OneResponsePerRead
  intro s t h
  obtain ⟨ev, h⟩ | ⟨es, ev, h⟩ | ⟨w, es, ev, rfl⟩ | ⟨w, v, es, ev, h⟩ | ⟨es, ev, rfl⟩ := step_cases h
  · simp [ev, engineStep_record h]
  · simp [ev, engineStep_record h]
  · refine ⟨fun w' rest ev' => ?_, fun hne => absurd ev (hne w es)⟩
    obtain ⟨rfl, rfl⟩ : w = w' ∧ es = rest := by simpa [ev] using ev'
    rfl
  · simp [ev, hostWrite_record h]
  · simp [ev]

/-- Settles O19, by the kind of the event taken. -/
theorem stepTakesOneEvent : Obligations.StepTakesOneEvent := by
  unfold Obligations.StepTakesOneEvent
  intro s t h
  obtain ⟨ev, h⟩ | ⟨es, ev, h⟩ | ⟨w, es, ev, rfl⟩ | ⟨w, v, es, ev, h⟩ | ⟨es, ev, rfl⟩ := step_cases h
  · simp [ev, engineStep_record h]
  · simp [ev, engineStep_record h]
  · simp [ev]
  · simp [ev, hostWrite_record h]
  · simp [ev]

/-! ### The engine under host accesses (20_memory.md R69, R73; 70_reset_and_hazards.md R298) -/

/-- `t` has everything of the engine as in `s`. -/
structure SameEngine (s t : State) : Prop where
  phase : t.phase = s.phase
  x : t.x = s.x
  y : t.y = s.y
  bpk : t.bpk = s.bpk
  etu : t.etu = s.etu
  esc : t.esc = s.esc
  count : t.count = s.count
  size : t.size = s.size

/-- While busy no command is accepted, so none reaches the engine (44_host_access.md R243). -/
theorem exec_sameEngine {i : Instr} {s t : State} (hp : s.phase ≠ .idle) (h : exec i s = .next t) :
    SameEngine s t := by
  obtain ⟨⟨hsize, -, -, hesc, hcount, -⟩, -, -, -, -, -, hbusy⟩ := commandFrame i s t h
  obtain ⟨hphase, -, hbpk, hetu, hx, hy⟩ := hbusy hp
  exact ⟨hphase, hx, hy, hbpk, hetu, hesc, hcount, hsize⟩

theorem hostWrite_sameEngine {w : Index} {v : Word} {s t : State} (hp : s.phase ≠ .idle)
    (h : hostWrite w v s = .next t) : SameEngine s t := by
  obtain ⟨rfl, h⟩ | ⟨-, rfl⟩ | ⟨-, rfl⟩ | ⟨-, rfl⟩ | ⟨-, rfl⟩ | ⟨-, rfl⟩ | rfl := hostWrite_cases h
  · obtain ⟨-, -, rfl⟩ | ⟨i, -, h⟩ := writeCtrl_cases h
    · constructor <;> rfl
    · exact exec_sameEngine hp h
  all_goals constructor <;> rfl

theorem hostRead_sameEngine (w : Index) (s : State) : SameEngine s (s.hostRead w) := by
  constructor <;> rfl

/-- Settles O20: a read changes no register, and a write while busy none of the engine's. -/
theorem busyHostAccessLeavesTheEngine : Obligations.BusyHostAccessLeavesTheEngine := by
  unfold Obligations.BusyHostAccessLeavesTheEngine
  intro s a hp
  obtain ⟨t, h, e⟩ : ∃ t, hostAccess a s = .next t ∧ SameEngine s t := by
    cases a with
    | read w => exact ⟨_, rfl, hostRead_sameEngine w s⟩
    | write w v =>
      obtain ⟨t, h⟩ := hostWrite_next w v s
      exact ⟨t, h, hostWrite_sameEngine hp h⟩
  exact ⟨t, h, e.phase, e.x, e.y, e.bpk, e.etu, e.esc, e.count, e.size⟩

/-! ### The platform's word index (20_memory.md R61, R66) -/

/-- Settles O59, from the window's bounds and the division by 4. -/
theorem platformWordIndex : Obligations.PlatformWordIndex := by
  unfold Obligations.PlatformWordIndex
  constructor
  · intro base w
    have hw := w.isLt
    rw [wordIndexAt, if_pos (by omega), show (base + 4 * w.toNat - base) / 4 = w.toNat by omega, BitVec.ofNat_toNat,
      BitVec.setWidth_eq]
  · intro base addr bytes w h
    obtain ⟨⟨hbytes, hbase, hend, halign⟩, hw⟩ := Option.ite_none_right_eq_some.mp h
    obtain rfl := Option.some.inj hw
    rw [BitVec.toNat_ofNat]
    omega

end Sys2Proof.Machine
end

section
/-!
A point's result does not depend on the NaN patterns drawn (40_fp_datapath.md R131), on two ETU states that differ in
NaN patterns only, and what one ITER does to the escape flag a point will end with (41_escape_test.md R155, R157).
-/

namespace Sys2Proof.Machine

/-- Two ETU states that agree up to the NaN patterns in their registers. -/
structure Etu.SameUpToNaN (u v : Etu) : Prop where
  zr : Machine.SameUpToNaN u.zr v.zr
  zi : Machine.SameUpToNaN u.zi v.zi
  zrzr : Machine.SameUpToNaN u.zrzr v.zrzr
  zizi : Machine.SameUpToNaN u.zizi v.zizi
  crq : u.crq = v.crq
  ciq : u.ciq = v.ciq
  it : u.it = v.it
  escape : u.escape = v.escape

theorem Etu.SameUpToNaN.refl (u : Etu) : u.SameUpToNaN u :=
  ⟨.refl _, .refl _, .refl _, .refl _, rfl, rfl, rfl, rfl⟩

/-- The values of one ITER agree, one by one, up to the NaN patterns. -/
structure IterValues.SameUpToNaN (a b : IterValues) : Prop where
  t1 : Machine.SameUpToNaN a.t1 b.t1
  zr : Machine.SameUpToNaN a.zr b.zr
  t2 : Machine.SameUpToNaN a.t2 b.t2
  t3 : Machine.SameUpToNaN a.t3 b.t3
  zi : Machine.SameUpToNaN a.zi b.zi
  zrzr : Machine.SameUpToNaN a.zrzr b.zrzr
  zizi : Machine.SameUpToNaN a.zizi b.zizi
  s : Machine.SameUpToNaN a.s b.s

namespace Etu.SameUpToNaN
variable {u v : Etu} {n m : Nat}

theorem iterValues (h : u.SameUpToNaN v) : (iterValues n u).SameUpToNaN (iterValues m v) := by
  have t1 := fsub_same (n := n) (m := m) h.zrzr h.zizi
  have zr := fadd_same (n := n + 1) (m := m + 1) t1 (.inl h.crq)
  have t2 := fmul_same (n := n + 2) (m := m + 2) (.refl two) zr
  have t3 := fmul_same (n := n + 3) (m := m + 3) t2 h.zi
  have zi := fadd_same (n := n + 4) (m := m + 4) t3 (.inl h.ciq)
  have zrzr := fmul_same (n := n + 5) (m := m + 5) zr zr
  have zizi := fmul_same (n := n + 6) (m := m + 6) zi zi
  exact ⟨t1, zr, t2, t3, zi, zrzr, zizi, fadd_same zrzr zizi⟩

theorem iter (h : u.SameUpToNaN v) : (u.iter n).SameUpToNaN (v.iter m) :=
  have hv := h.iterValues (n := n) (m := m)
  ⟨hv.zr, hv.zi, hv.zrzr, hv.zizi, h.crq, h.ciq, congrArg (· + 1) h.it, hv.s.fgt_eq⟩

theorem nonFinite_eq (h : u.SameUpToNaN v) : u.nonFinite n = v.nonFinite m := by
  have hv := h.iterValues (n := n) (m := m)
  simp only [Etu.nonFinite, h.crq, h.ciq, hv.t1.isfinite_eq, hv.zr.isfinite_eq, hv.t2.isfinite_eq, hv.t3.isfinite_eq,
    hv.zi.isfinite_eq, hv.zrzr.isfinite_eq, hv.zizi.isfinite_eq, hv.s.isfinite_eq]

end Etu.SameUpToNaN

/-- The rest of a point's loop takes no note of the draws. -/
theorem escapeLoop_eq_of_sameUpToNaN (k n m : Nat) (nf : Bool) {u v : Etu} (h : u.SameUpToNaN v) :
    escapeLoop k n nf u = escapeLoop k m nf v := by
  induction k generalizing n m nf u v with
  | zero => simp [escapeLoop, h.it]
  | succ k ih =>
    have hi := h.iter (n := n) (m := m)
    simp only [escapeLoop, hi.escape, hi.it, h.nonFinite_eq (n := n) (m := m)]
    rw [ih _ _ _ hi]

/-- The loop only passes its NF argument on. -/
theorem escapeLoop_nf (k n : Nat) (nf : Bool) (u : Etu) :
    escapeLoop k n nf u = { escapeLoop k n false u with nf := nf || (escapeLoop k n false u).nf } := by
  induction k generalizing n nf u with
  | zero => simp [escapeLoop]
  | succ k ih =>
    simp only [escapeLoop]
    split
    · simp
    · rw [ih _ (nf || _), ih _ (false || _)]
      simp [Bool.or_assoc]

/-! ### The flag of the point in work -/

/-- The escape flag with which the point in work ends, from the ETU registers so far (41_escape_test.md R157). -/
def Etu.flagAtEnd (u : Etu) : Bool := (escapeLoop (Config.iterMax - u.it.toNat) 0 false u).esc

theorem flagAtEnd_pointStart (cr ci : F64) : (Etu.pointStart cr ci).flagAtEnd = (escapeTest 0 cr ci).esc := rfl

section
variable {u : Etu} {n : Nat} (hit : u.it.toNat < 50)
include hit

theorem iter_it_toNat_of_lt : (u.iter n).it.toNat = u.it.toNat + 1 := by
  simp [BitVec.toNat_add]
  omega

/-- One ITER of the loop: it ends the point with 1, or the rest of the loop decides. -/
theorem flagAtEnd_iter : u.flagAtEnd = ((u.iter n).escape || (u.iter n).flagAtEnd) := by
  have hsame : (u.iter 0).SameUpToNaN (u.iter n) := (Etu.SameUpToNaN.refl u).iter
  have hk : Config.iterMax - u.it.toNat = Config.iterMax - (u.iter n).it.toNat + 1 := by
    rw [iter_it_toNat_of_lt hit, Config.iterMax]
    omega
  rw [Etu.flagAtEnd, hk, escapeLoop, hsame.escape]
  cases (u.iter n).escape with
  | true => rfl
  | false =>
    simp only [Bool.false_eq_true, if_false, Bool.false_or, Etu.flagAtEnd]
    rw [escapeLoop_nf, escapeLoop_eq_of_sameUpToNaN _ _ 0 _ hsame]

theorem escape_eq_flagAtEnd (hf : (u.iter n).finished = true) : (u.iter n).escape = u.flagAtEnd := by
  rw [flagAtEnd_iter hit (n := n)]
  cases he : (u.iter n).escape with
  | true => rfl
  | false =>
    rw [Bool.false_or, Etu.flagAtEnd, it_eq_of_finished hf he]
    rfl

theorem flagAtEnd_iter_of_goesOn (hf : (u.iter n).finished = false) : (u.iter n).flagAtEnd = u.flagAtEnd := by
  have he : (u.iter n).escape = false := (Bool.or_eq_false_iff.mp hf).1
  rw [flagAtEnd_iter hit (n := n), he, Bool.false_or]

theorem it_lt_of_goesOn (hf : (u.iter n).finished = false) : (u.iter n).it.toNat < 50 := by
  have hne : (u.iter n).it.toNat ≠ 50 := beq_eq_false_iff_ne.mp (Bool.or_eq_false_iff.mp hf).2
  rw [iter_it_toNat_of_lt hit] at hne ⊢
  omega

end

end Sys2Proof.Machine
end

section
/-!
A RUN under interleaved host accesses (20_memory.md R72, R73; 70_reset_and_hazards.md R302): at the point (x, y) the
packer holds the flags of the points before it, and host accesses leave that as it is.
-/

namespace Sys2Proof.Machine

/-- The packer of a SIZE = `size` RUN when it comes to the point (x, y) (43_sequencer.md R218). -/
def packerAt (size x y : Nat) : Bpk := packRow size y (packRows size y) x

/-- The position is on the grid, and the packer holds the flags of the points before it. -/
structure State.AtPoint (s : State) : Prop where
  col : s.x.toNat < s.size.toNat
  row : s.y.toNat < s.size.toNat
  packer : s.bpk = packerAt s.size.toNat s.x.toNat s.y.toNat

/-- How far a RUN is, by the phase: at a point of the grid, and in R_ITER and R_END with what is known of the point's
own flag; or done, with the packer of the whole grid. -/
inductive RunProgress (s : State) : Prop
  | start (phase : s.phase = .rStart) (point : s.AtPoint)
  | iter (phase : s.phase = .rIter) (point : s.AtPoint) (counter : s.etu.it.toNat < 50)
      (flag : s.etu.flagAtEnd = escapeFlag s.size.toNat s.x.toNat s.y.toNat)
  | pack (phase : s.phase = .rEnd) (point : s.AtPoint)
      (flag : s.esc = escapeFlag s.size.toNat s.x.toNat s.y.toNat)
  | done (phase : s.phase = .idle) (build : s.size ≠ 0) (packer : s.bpk = packRows s.size.toNat s.size.toNat)
      (col : s.x = 0) (row : s.y = s.size)

theorem packerAt_next_column (size x y : Nat) :
    packerAt size (x + 1) y = (packerAt size x y).packBit (escapeFlag size x y) (x + 1 == size) := rfl

theorem packerAt_row_end (size y : Nat) : packerAt size size y = packRows size (y + 1) := rfl

theorem packerAt_row_start (size y : Nat) : packerAt size 0 y = packRows size y := rfl

theorem escapeFlag_of_coordinates {size x y : Nat} {cr ci : F64} (hcr : coordR size x = some cr)
    (hci : coordI size y = some ci) : escapeFlag size x y = (escapeTest 0 cr ci).esc := by
  simp [escapeFlag, gridPoint, hcr, hci]

/-- A row's last bit flushes the packer (42_bit_packer.md R189). -/
theorem packBit_last_empty (b : Bool) (p : Bpk) : p.packBit b true = ⟨(p.packBit b true).sum, 0, 0⟩ := by
  rw [packBit_eq, if_pos rfl]
  split <;> rfl

/-- After the last row the packer holds the checksum and no bit (43_sequencer.md R218). -/
theorem packRows_eq_checksum {size : Nat} (h : size ≠ 0) : packRows size size = ⟨checksum size, 0, 0⟩ := by
  obtain ⟨n, rfl⟩ := Nat.exists_eq_succ_of_ne_zero h
  simp only [checksum, packRows, packRow, beq_self_eq_true]
  exact packBit_last_empty _ _

namespace RunProgress
variable {s t : State} {es : List Event}

theorem startRun (h : s.size ≠ 0) : RunProgress s.startRun := by
  have hpos : 0 < s.size.toNat := Nat.pos_of_ne_zero (size_toNat_ne_zero h)
  exact .start rfl ⟨by simpa using hpos, by simpa using hpos, rfl⟩

/-- The result of a RUN that is back in IDLE. -/
theorem result (h : RunProgress s) (hp : s.phase = .idle) :
    s.bpk = ⟨checksum s.size.toNat, 0, 0⟩ ∧ s.x = 0 ∧ s.y = s.size := by
  cases h with
  | done _ build packer col row => exact ⟨packer.trans (packRows_eq_checksum (size_toNat_ne_zero build)), col, row⟩
  | _ phase => simp [phase] at hp

/-- The progress rests on the engine's part of the state alone. -/
theorem of_sameEngine (h : RunProgress s) (e : SameEngine s t) : RunProgress t := by
  cases s
  cases t
  obtain ⟨rfl, rfl, rfl, rfl, rfl, rfl, -, rfl⟩ := e
  cases h with
  | start phase point => exact .start phase { point with }
  | iter phase point counter flag => exact .iter phase { point with } counter flag
  | pack phase point flag => exact .pack phase { point with } flag
  | done phase build packer col row => exact .done phase build packer col row

/-! ### The engine's steps (43_sequencer.md R221 to R223) -/

theorem rStart {cr ci : F64} (point : s.AtPoint) (hcr : coordR s.size.toNat s.x.toNat = some cr)
    (hci : coordI s.size.toNat s.y.toNat = some ci) :
    RunProgress { s with etu := Etu.pointStart cr ci, phase := .rIter } :=
  .iter rfl { point with } (by simp) ((flagAtEnd_pointStart cr ci).trans (escapeFlag_of_coordinates hcr hci).symm)

theorem rIter (phase : s.phase = .rIter) (point : s.AtPoint) (counter : s.etu.it.toNat < 50)
    (flag : s.etu.flagAtEnd = escapeFlag s.size.toNat s.x.toNat s.y.toNat) : RunProgress s.rIterStep := by
  rw [rIterStep_eq]
  split_ifs with hf
  · rw [iterate_of_finished hf]
    exact .pack rfl { point with } ((escape_eq_flagAtEnd counter hf).trans flag)
  · rw [Bool.not_eq_true] at hf
    rw [iterate_of_goesOn hf]
    exact .iter phase { point with } (it_lt_of_goesOn counter hf) ((flagAtEnd_iter_of_goesOn counter hf).trans flag)

theorem rEnd (point : s.AtPoint) (flag : s.esc = escapeFlag s.size.toNat s.x.toNat s.y.toNat) :
    RunProgress s.rEndStep := by
  obtain ⟨hx, hy, hbpk⟩ := point
  have hsz := s.size.isLt
  have build : s.size ≠ 0 := fun h0 => by simp [h0] at hx
  have hnext := packerAt_next_column s.size.toNat s.x.toNat s.y.toNat
  rw [← hbpk, ← flag] at hnext
  rw [rEndStep_eq build hy]
  split_ifs with hcol hrow
  · rw [hcol, beq_self_eq_true, packerAt_row_end, hrow] at hnext
    exact .done rfl build hnext.symm rfl rfl
  · have hy1 : (s.y + 1).toNat = s.y.toNat + 1 := by simp [BitVec.toNat_add]; omega
    rw [hcol, beq_self_eq_true, packerAt_row_end, ← packerAt_row_start, ← hy1] at hnext
    exact .start rfl ⟨by simp; omega, by simp only [hy1]; omega, hnext.symm⟩
  · have hx1 : (s.x + 1).toNat = s.x.toNat + 1 := by simp [BitVec.toNat_add]; omega
    rw [beq_eq_false_iff_ne.mpr hcol, ← hx1] at hnext
    exact .start rfl ⟨by simp only [hx1]; omega, hy, hnext.symm⟩

theorem engineStep (h : RunProgress s) (ht : s.engineStep = .next t) : RunProgress t := by
  obtain ⟨-, rfl⟩ | ⟨hp, rfl⟩ | ⟨hp, -, cr, ci, hcr, hci, rfl⟩ | ⟨hp, rfl⟩ | ⟨hp, rfl⟩ := engineStep_cases ht
  · exact h
  · cases h with
    | _ phase => simp [phase] at hp
  · cases h with
    | start _ point => exact rStart point hcr hci
    | _ phase => simp [phase] at hp
  · cases h with
    | iter _ point counter flag => exact rIter hp point counter flag
    | _ phase => simp [phase] at hp
  · cases h with
    | pack _ point flag => exact rEnd point flag
    | _ phase => simp [phase] at hp

/-! ### Every step but a reset -/

theorem step (h : RunProgress s) (hp : s.phase ≠ .idle) (hr : ∀ e ∈ s.events, e ≠ .reset)
    (ht : Machine.step s = .next t) : RunProgress t := by
  have drop (es : List Event) : RunProgress { s with events := es } := h.of_sameEngine (by constructor <;> rfl)
  obtain ⟨-, ht⟩ | ⟨es, -, ht⟩ | ⟨w, es, -, rfl⟩ | ⟨w, v, es, -, ht⟩ | ⟨es, ev, -⟩ := step_cases ht
  · exact h.engineStep ht
  · exact (drop es).engineStep ht
  · exact (drop es).of_sameEngine (hostRead_sameEngine w _)
  · exact (drop es).of_sameEngine (hostWrite_sameEngine hp ht)
  · exact absurd rfl (hr .reset (by simp [ev]))

end RunProgress

/-- A run of `k + 1` steps is one step and a run of `k`. -/
theorem step_of_run_succ {k : Nat} {s t : State} (h : Sys2Proof.core.run (k + 1) s = .next t) :
    ∃ u, step s = .next u ∧ Sys2Proof.core.run k u = .next t := by
  simp only [Host.Core.run] at h
  split at h
  · next u hu => exact ⟨u, hu, h⟩
  · cases h
  · cases h

theorem run_succ_of_step {k : Nat} {s u : State} (h : step s = .next u) :
    Sys2Proof.core.run (k + 1) s = Sys2Proof.core.run k u := by
  have h' : Sys2Proof.core.step s = .next u := h
  simp only [Host.Core.run, h']

/-- The progress after a run that is busy before each of its steps, and the size of the build there. -/
theorem run_progress (k : Nat) {s t : State} (h : RunProgress s) (hr : ∀ e ∈ s.events, e ≠ .reset)
    (hbusy : ∀ j u, j < k → Sys2Proof.core.run j s = .next u → u.phase ≠ .idle)
    (ht : Sys2Proof.core.run k s = .next t) : RunProgress t ∧ t.size = s.size := by
  induction k generalizing s with
  | zero =>
    obtain rfl : s = t := Host.Outcome.next.inj ht
    exact ⟨h, rfl⟩
  | succ k ih =>
    obtain ⟨u, hu, hrun⟩ := step_of_run_succ ht
    have hevents : ∀ e ∈ u.events, e ≠ .reset := by
      rw [stepTakesOneEvent s u hu]
      exact fun e he => hr e (List.mem_of_mem_tail he)
    have hbusy' : ∀ j v, j < k → Sys2Proof.core.run j u = .next v → v.phase ≠ .idle := fun j v hj hv =>
      hbusy (j + 1) v (by omega) ((run_succ_of_step hu).trans hv)
    obtain ⟨hprogress, hsize⟩ := ih (h.step (hbusy 0 s (by omega) rfl) hr hu) hevents hbusy' hrun
    exact ⟨hprogress, hsize.trans (sizeNeverChanges s u hu)⟩

/-- Settles O46: each step before the first return to IDLE keeps the progress of the RUN. -/
theorem runIsExactUnderInterleaving : Obligations.RunIsExactUnderInterleaving := by
  unfold Obligations.RunIsExactUnderInterleaving
  intro s t k _ hsize hr hbusy ht hidle
  obtain ⟨hprogress, hs⟩ := run_progress k (.startRun hsize) hr hbusy ht
  obtain ⟨hbpk, hx, hy⟩ := hprogress.result hidle
  rw [startRun_size] at hs
  rw [hs] at hbpk hy
  exact ⟨hbpk, hx, hy, hs⟩

end Sys2Proof.Machine
end

section
/-!
The encoding of the commands (spec/30_encoding.md R91 to R96): the words that decode to a command are the encodings, and
they are the words with well-formed fields.
-/

namespace Sys2Proof

/-! ### All commands (R92) -/

/-- The eight commands, in the order in which `Obligations.OpcodeRowsSelectTheCommand` lists their words. -/
def Instr.all : List Instr :=
  [.nop, .run, .test, .clear, .pack false false, .pack true false, .pack false true, .pack true true]

theorem Instr.mem_all (i : Instr) : i ∈ Instr.all := by
  cases i with
  | pack b l => cases b <;> cases l <;> decide
  | _ => decide

/-! ### The fields of a word (R91, R92) -/

theorem CommandFields.toWord_ofWord (v : Word) : (ofWord v).toWord = v := by
  apply BitVec.eq_of_getLsbD_eq
  intro i hi
  simp only [toWord, ofWord, BitVec.getLsbD_append, BitVec.getLsbD_extractLsb']
  split_ifs with h0 h1 h2 h3
  · simp [h0]
  · simp [h1, show 3 + (i - 3) = i by omega]
  · simp [h2, show 8 + (i - 3 - 5) = i by omega]
  · simp [h3, show 9 + (i - 3 - 5 - 1) = i by omega]
  · simp [show 10 + (i - 3 - 5 - 1 - 1) = i by omega, show i - 3 - 5 - 1 - 1 < 22 by omega]

theorem CommandFields.wf_iff (f : CommandFields) :
    f.wf = true ↔ f.op.toNat ≤ 4 ∧ (f.rsvLow = 0 ∧ f.rsvHigh = 0) ∧ (f.op = 3 ∨ f.pbit = 0 ∧ f.plast = 0) := by
  simp [wf, opDefined, reservedZero, packFieldsOnlyOnPack, and_assoc]

theorem Instr.wellFormed (i : Instr) : i.WellFormed :=
  (by decide : ∀ i ∈ Instr.all, i.WellFormed) i i.mem_all

/-- Well-formed fields are the fields of a command: OP says which, and PBIT and PLAST are the operands of a PACK. -/
theorem CommandFields.exists_fields_of_wf {f : CommandFields} (h : f.wf = true) : ∃ i : Instr, i.fields = f := by
  obtain ⟨op, low, pbit, plast, high⟩ := f
  obtain ⟨hop, ⟨rfl, rfl⟩, hpack⟩ := (wf_iff _).mp h
  have ofBool_eq : ∀ b : BitVec 1, BitVec.ofBool (b == 1) = b := by decide
  have hcases : ∀ o : BitVec 3, o.toNat ≤ 4 → o = 0 ∨ o = 1 ∨ o = 2 ∨ o = 3 ∨ o = 4 := by decide
  obtain rfl | hne := eq_or_ne op 3
  · exact ⟨.pack (pbit == 1) (plast == 1), by simp only [Instr.fields, ofBool_eq]⟩
  · obtain ⟨rfl, rfl⟩ := hpack.resolve_left hne
    obtain rfl | rfl | rfl | rfl | rfl := hcases op hop
    · exact ⟨.nop, rfl⟩
    · exact ⟨.run, rfl⟩
    · exact ⟨.test, rfl⟩
    · exact absurd rfl hne
    · exact ⟨.clear, rfl⟩

theorem CommandFields.ofWord_encode (i : Instr) : ofWord (encode i) = i.fields :=
  (by decide : ∀ i ∈ Instr.all, ofWord (encode i) = i.fields) i i.mem_all

/-! ### PACK's row of the table (R93) -/

/-- The mask of PACK's row leaves out bits 8 and 9. -/
theorem packMask_getLsbD : ∀ i < 32, (0xFFFFFCFF#32).getLsbD i = (i != 8 && i != 9) := by decide

theorem encode_pack_getLsbD (b l : Bool) :
    ∀ i < 32, (encode (.pack b l)).getLsbD i = if i = 8 then b else if i = 9 then l else (3#32).getLsbD i := by
  cases b <;> cases l <;> decide

/-- A word that PACK's row selects is the encoding of the PACK with its bits 8 and 9. -/
theorem encode_pack_of_masked {v : Word} (h : v &&& 0xFFFFFCFF#32 = 3#32) :
    encode (.pack (v.getLsbD 8) (v.getLsbD 9)) = v := by
  apply BitVec.eq_of_getLsbD_eq
  intro i hi
  rw [encode_pack_getLsbD _ _ i hi]
  split_ifs with h8 h9
  · rw [h8]
  · rw [h9]
  · rw [← h, BitVec.getLsbD_and, packMask_getLsbD i hi]
    simp [h8, h9]

/-! ### Decode and encode (R94, R95) -/

theorem encode_of_decode {v : Word} {i : Instr} (h : decode v = .command i) : encode i = v := by
  unfold decode at h
  split_ifs at h with h0 h1 h2 h3 h4 <;> obtain rfl := Decoded.command.inj h
  · exact h0.symm
  · exact h1.symm
  · exact h2.symm
  · exact encode_pack_of_masked h3
  · exact h4.symm

theorem decode_eq_command_iff {v : Word} {i : Instr} : decode v = .command i ↔ encode i = v :=
  ⟨encode_of_decode, by rintro rfl; exact Machine.decode_encode i⟩

theorem exists_decode_iff_exists_encode (v : Word) : (∃ i, decode v = .command i) ↔ ∃ i, encode i = v :=
  exists_congr fun _ => decode_eq_command_iff

/-- A word decodes to a command exactly when its fields are well-formed. -/
theorem exists_decode_iff_wf (v : Word) : (∃ i, decode v = .command i) ↔ (CommandFields.ofWord v).wf = true := by
  rw [exists_decode_iff_exists_encode]
  constructor
  · rintro ⟨i, rfl⟩
    rw [CommandFields.ofWord_encode]
    exact i.wellFormed
  · intro h
    obtain ⟨i, hi⟩ := CommandFields.exists_fields_of_wf h
    exact ⟨i, by rw [encode, hi, CommandFields.toWord_ofWord]⟩

theorem exists_illegal_iff (v : Word) : (∃ why, decode v = .illegal why) ↔ ¬ ∃ i, decode v = .command i := by
  cases decode v <;> simp

/-- Settles O3: the decoder's lines give back the encodings, and the fields of a command are well-formed. -/
theorem decodeEncodeAgree : Obligations.DecodeEncodeAgree := by
  unfold Obligations.DecodeEncodeAgree
  exact ⟨fun _ _ => decode_eq_command_iff, fun i => ⟨i.wellFormed, CommandFields.ofWord_encode i⟩⟩

/-- Settles O1: the legal words are encodings, and the fields of the others are not well-formed. -/
theorem listedWordsDecode : Obligations.ListedWordsDecode := by
  unfold Obligations.ListedWordsDecode
  have illegal : ∀ v : Word, (CommandFields.ofWord v).wf = false → ∀ i, decode v ≠ .command i := fun v hv i hd =>
    by simpa [hv] using (exists_decode_iff_wf v).mp ⟨i, hd⟩
  exact ⟨Machine.decode_encode .nop, Machine.decode_encode .run, Machine.decode_encode .test,
    Machine.decode_encode (.pack false false), Machine.decode_encode (.pack true false),
    Machine.decode_encode (.pack false true), Machine.decode_encode (.pack true true), Machine.decode_encode .clear,
    illegal _ (by decide), illegal _ (by decide), illegal _ (by decide), illegal _ (by decide)⟩

/-! ### The table of exact patterns (R93) -/

theorem toNat_mem_legalWords_iff (v : Word) :
    v.toNat ∈ [0x000, 0x001, 0x002, 0x004, 0x003, 0x103, 0x203, 0x303] ↔ ∃ i, encode i = v := by
  have hlist : [0x000, 0x001, 0x002, 0x004, 0x003, 0x103, 0x203, 0x303] =
      Instr.all.map fun i => (encode i).toNat := by decide
  simp [hlist, BitVec.toNat_inj, Instr.mem_all]

/-- Each row selects the encodings of the commands with its mnemonic and no others. -/
theorem encode_masked_iff {r : OpcodeRow} (hr : r ∈ opcodeRows) (i : Instr) :
    encode i &&& r.mask = r.pattern ↔ i.mnemonic = r.mnemonic :=
  (by decide : ∀ r ∈ opcodeRows, ∀ i ∈ Instr.all, encode i &&& r.mask = r.pattern ↔ i.mnemonic = r.mnemonic)
    r hr i i.mem_all

theorem exists_encode_of_masked {v : Word} {r : OpcodeRow} (hr : r ∈ opcodeRows) (h : v &&& r.mask = r.pattern) :
    ∃ i, encode i = v := by
  have and_ones : v &&& 0xFFFFFFFF#32 = v := BitVec.and_allOnes
  simp only [opcodeRows, List.mem_cons, List.not_mem_nil, or_false] at hr
  obtain rfl | rfl | rfl | rfl | rfl := hr
  · exact ⟨.nop, h.symm.trans and_ones⟩
  · exact ⟨.run, h.symm.trans and_ones⟩
  · exact ⟨.test, h.symm.trans and_ones⟩
  · exact ⟨_, encode_pack_of_masked h⟩
  · exact ⟨.clear, h.symm.trans and_ones⟩

theorem masked_iff_exists_command {r : OpcodeRow} (hr : r ∈ opcodeRows) (v : Word) :
    v &&& r.mask = r.pattern ↔ ∃ i, decode v = .command i ∧ i.mnemonic = r.mnemonic := by
  simp only [decode_eq_command_iff]
  constructor
  · intro h
    obtain ⟨i, rfl⟩ := exists_encode_of_masked hr h
    exact ⟨i, rfl, (encode_masked_iff hr i).mp h⟩
  · rintro ⟨i, rfl, hm⟩
    exact (encode_masked_iff hr i).mpr hm

theorem opcodeRow_eq_of_mnemonic_eq : ∀ r ∈ opcodeRows, ∀ q ∈ opcodeRows, r.mnemonic = q.mnemonic → r = q := by
  decide

theorem opcodeRow_eq_of_masked {v : Word} {r q : OpcodeRow} (hr : r ∈ opcodeRows) (hq : q ∈ opcodeRows)
    (h : v &&& r.mask = r.pattern) (h' : v &&& q.mask = q.pattern) : r = q := by
  obtain ⟨i, rfl⟩ := exists_encode_of_masked hr h
  exact opcodeRow_eq_of_mnemonic_eq r hr q hq
    (((encode_masked_iff hr i).mp h).symm.trans ((encode_masked_iff hq i).mp h'))

/-- The operands of a PACK are bits 8 and 9 of its word (R94). -/
theorem pack_operands_of_decode {v : Word} {b l : Bool} (h : decode v = .command (.pack b l)) :
    b = v.getLsbD 8 ∧ l = v.getLsbD 9 := by
  rw [← encode_of_decode h, encode_pack_getLsbD b l 8 (by decide), encode_pack_getLsbD b l 9 (by decide)]
  exact ⟨rfl, rfl⟩

/-- Settles O2, from the words that each row selects. -/
theorem opcodeRowsSelectTheCommand : Obligations.OpcodeRowsSelectTheCommand := by
  unfold Obligations.OpcodeRowsSelectTheCommand
  exact ⟨fun v _ hr => masked_iff_exists_command hr v, fun _ _ _ => pack_operands_of_decode,
    fun _ _ hr _ hq => opcodeRow_eq_of_masked hr hq,
    fun v => (exists_decode_iff_exists_encode v).trans (toNat_mem_legalWords_iff v).symm⟩

/-! ### The illegal words (R96) -/

section
variable (v : Word)

theorem ofWord_op_toNat : (CommandFields.ofWord v).op.toNat = v.toNat % 8 := by
  simp [CommandFields.ofWord]

theorem ofWord_rsvLow_eq_zero_iff : (CommandFields.ofWord v).rsvLow = 0 ↔ v.toNat / 8 % 32 = 0 := by
  simp [CommandFields.ofWord, ← BitVec.toNat_inj, Nat.shiftRight_eq_div_pow]

theorem ofWord_rsvHigh_eq_zero_iff : (CommandFields.ofWord v).rsvHigh = 0 ↔ v.toNat / 1024 = 0 := by
  have hv := v.isLt
  simp [CommandFields.ofWord, ← BitVec.toNat_inj, Nat.shiftRight_eq_div_pow]
  omega

theorem ofWord_op_eq_three_iff : (CommandFields.ofWord v).op = 3 ↔ v.toNat % 8 = 3 := by
  rw [← ofWord_op_toNat, ← BitVec.toNat_inj]
  rfl

theorem extractLsb'_one_eq_zero_iff (k : Nat) : v.extractLsb' k 1 = 0 ↔ v.getLsbD k = false := by
  have hbit : v.extractLsb' k 1 = BitVec.ofBool (v.getLsbD k) := by
    ext i hi
    simp [show i = 0 by omega]
  rw [hbit]
  cases v.getLsbD k <;> decide

theorem exists_illegal_iff_toNat :
    (∃ why, decode v = .illegal why) ↔
      (5 ≤ v.toNat % 8 ∨ v.toNat / 8 % 32 ≠ 0 ∨ v.toNat / 1024 ≠ 0 ∨
        (v.toNat % 8 ≠ 3 ∧ (v.getLsbD 8 = true ∨ v.getLsbD 9 = true))) := by
  have hop : v.toNat % 8 ≤ 4 ↔ ¬ 5 ≤ v.toNat % 8 := by omega
  have hpbit : (CommandFields.ofWord v).pbit = 0 ↔ v.getLsbD 8 = false := extractLsb'_one_eq_zero_iff v 8
  have hplast : (CommandFields.ofWord v).plast = 0 ↔ v.getLsbD 9 = false := extractLsb'_one_eq_zero_iff v 9
  rw [exists_illegal_iff, exists_decode_iff_wf, CommandFields.wf_iff, ofWord_op_toNat, ofWord_rsvLow_eq_zero_iff,
    ofWord_rsvHigh_eq_zero_iff, ofWord_op_eq_three_iff, hpbit, hplast, hop, ← Bool.not_eq_true, ← Bool.not_eq_true]
  tauto

end

namespace Machine

/-- A CTRL write of an illegal word is a rejection and nothing else (44_host_access.md R243). -/
theorem step_ctrl_illegal {s : State} {es : List Event} {v : Word} {why : IllegalWord}
    (h : s.events = .access (.write 0 v) :: es) (hd : decode v = .illegal why) :
    step s = .next (State.reject .illegalWord { s with events := es }) := by
  rw [step_access h]
  simp [hostAccess, hostWrite, regAt, writeCtrl, hd]

/-- Settles O4, from the field rules that an illegal word breaks. -/
theorem illegalWordsOnlySetErr : Obligations.IllegalWordsOnlySetErr := by
  unfold Obligations.IllegalWordsOnlySetErr
  exact fun v => ⟨exists_illegal_iff_toNat v, fun _ _ ⟨_, hd⟩ h => step_ctrl_illegal h hd⟩

end Machine

end Sys2Proof
end

section
/-!
The value of a binary64 pattern from its bits as a number (30_encoding.md R99, 40_fp_datapath.md R122, R130), and the
rounding of a value that binary64 holds (R123).
-/

namespace Sys2Proof.Machine

/-! ### Fields and classes, as numbers -/

section
variable (p : F64)

theorem expOf_eq : expOf p = p.toNat / 2 ^ 52 % 2 ^ 11 := by
  rw [expOf, BitVec.extractLsb'_toNat, Nat.shiftRight_eq_div_pow]

theorem fracOf_eq : fracOf p = p.toNat % 2 ^ 52 := by
  rw [fracOf, BitVec.extractLsb'_toNat, Nat.shiftRight_zero]

theorem signOf_eq : signOf p = decide (2 ^ 63 ≤ p.toNat) :=
  (BitVec.msb_eq_getLsbD_last p).symm.trans (BitVec.msb_eq_decide p)

theorem isfinite_iff_expOf : isfinite p = true ↔ expOf p ≠ 0x7FF := by simp [isfinite]

theorem isNaN_iff : isNaN p = true ↔ expOf p = 0x7FF ∧ fracOf p ≠ 0 := by simp [isNaN]

theorem isInf_iff : isInf p = true ↔ expOf p = 0x7FF ∧ fracOf p = 0 := by simp [isInf]

theorem isZero_iff : isZero p = true ↔ expOf p = 0 ∧ fracOf p = 0 := by simp [isZero]

theorem val_eq : val p = (if 2 ^ 63 ≤ p.toNat then -1 else 1) * (mag p : Int) := by
  simp only [val, signOf_eq, decide_eq_true_eq, ite_mul, neg_one_mul, one_mul]

end

/-! ### Rounding a value binary64 holds -/

/-- A pattern is known by its sign and its magnitude. -/
theorem eq_of_signOf_of_mag {p q : F64} (hs : signOf p = signOf q) (hm : mag p = mag q) : p = q := by
  rw [← ofMag_mag p, hs, hm, ofMag_mag]

theorem decide_val_neg {p : F64} (h : val p ≠ 0) : decide (val p < 0) = signOf p := by
  unfold val at h ⊢
  cases signOf p with
  | false => simp
  | true =>
    simp only [if_true, decide_eq_true_iff] at h ⊢
    omega

/-- A finite value is its own rounding: the rounding has its magnitude, which is spaced, and its sign. -/
theorem round_val_mul (p : F64) (d : Nat) (hp : isfinite p = true) (hd : 0 < d) :
    round (val p * d) d (signOf p) = p := by
  have hmag : roundMag (val p * d).natAbs d = mag p := by
    rw [Int.natAbs_mul, natAbs_val, Int.natAbs_natCast, roundMag_exact hd (mag_spaced p)]
  obtain ⟨-, hm, hs⟩ := round_finite (s := signOf p) hd (hmag ▸ mag_lt_overflow hp)
  refine eq_of_signOf_of_mag (hs.trans ?_) (hm.trans hmag)
  split_ifs with h0
  · rfl
  · have hneg : val p * d < 0 ↔ val p < 0 := by
      simpa only [zero_mul] using mul_lt_mul_iff_left₀ (b := val p) (c := 0) (Int.natCast_pos.mpr hd)
    simp only [hneg, decide_val_neg (left_ne_zero_of_mul h0)]

/-- Settles O54: the fields from the bits, and the rounding of a spaced magnitude. -/
theorem roundIsExactOnBinary64 : Obligations.RoundIsExactOnBinary64 := by
  unfold Obligations.RoundIsExactOnBinary64
  refine ⟨?_, round_val_mul⟩
  rintro p _ _ rfl rfl
  rw [← expOf_eq, ← fracOf_eq]
  refine ⟨rfl, rfl, ?_, isfinite_iff_expOf p, isNaN_iff p, isInf_iff p, isZero_iff p, fun _ => val_eq p⟩
  rw [signOf_eq, decide_eq_true_iff]

end Sys2Proof.Machine
end

section
/-!
The accesses of a host script's statements and what they do (30_encoding.md R102, R103).
-/

namespace Sys2Proof.Machine

/-! ### Runs that begin with a host access -/

/-- A run whose first event is an access goes on from the state the access leaves. -/
theorem run_succ_of_access {k : Nat} {a : Access} {es : List Event} {s t : State} (ev : s.events = .access a :: es)
    (h : hostAccess a { s with events := es } = .next t) :
    Sys2Proof.core.run (k + 1) s = Sys2Proof.core.run k t :=
  run_succ_of_step ((step_access ev).trans h)

section
variable {s : State} {es : List Event} {k : Nat}

/-- The two accesses of SETCR leave the whole operand in CR, busy or not (44_host_access.md R245). -/
theorem run_setCr {f : F64} (ev : s.events = scriptEvents [.setCr f] ++ es) :
    Sys2Proof.core.run (k + 2) s = Sys2Proof.core.run k { s with events := es, cr := f } := by
  rw [run_succ_of_access (es := .access (.write 5 (highHalf f)) :: es) ev rfl, run_succ_of_access rfl rfl,
    setHighHalf_setLowHalf]

/-- The two accesses of SETCI leave the whole operand in CI. -/
theorem run_setCi {f : F64} (ev : s.events = scriptEvents [.setCi f] ++ es) :
    Sys2Proof.core.run (k + 2) s = Sys2Proof.core.run k { s with events := es, ci := f } := by
  rw [run_succ_of_access (es := .access (.write 7 (highHalf f)) :: es) ev rfl, run_succ_of_access rfl rfl,
    setHighHalf_setLowHalf]

/-- On an idle block the access of TEST starts the test of the operands (41_escape_test.md R158). -/
theorem run_test (idle : s.phase = .idle) (ev : s.events = scriptEvents [.test] ++ es) :
    Sys2Proof.core.run (k + 1) s = Sys2Proof.core.run k (State.startTest { s with events := es }) :=
  run_succ_of_step ((step_ctrl ev (decode_encode .test)).trans (acceptCommand_idle idle))

end

/-! ### The accesses of a statement -/

theorem expand_pack (b l : Bool) : (Stmt.pack b l).expand = [.write 0 (encode (.pack b l))] := by
  cases b <;> cases l <;> decide

/-- The accesses of TESTPT are those of its four parts (R103). -/
theorem scriptEvents_testPt (a b : F64) (again : Nat) :
    scriptEvents [.testPt a b again] =
      scriptEvents [.setCr a] ++ (scriptEvents [.setCi b] ++ (scriptEvents [.test] ++ scriptEvents [.poll again])) := by
  simp [scriptEvents, Stmt.expand]

theorem run_testPt {s : State} {a b : F64} {again : Nat} (idle : s.phase = .idle)
    (ev : s.events = scriptEvents [.testPt a b again]) :
    Sys2Proof.core.run 5 s =
      .next (State.startTest { s with events := scriptEvents [.poll again], cr := a, ci := b }) :=
  calc Sys2Proof.core.run 5 s
    _ = Sys2Proof.core.run 3 { s with events := _, cr := a } := run_setCr (ev.trans (scriptEvents_testPt a b again))
    _ = Sys2Proof.core.run 1 { s with events := _, cr := a, ci := b } := run_setCi rfl
    _ = _ := run_test idle rfl

/-! ### POLL -/

theorem pollComplete_cons {v : Word} {vs : List Word} (h : vs ≠ []) :
    pollComplete (v :: vs) = (pollGoesOn v && pollComplete vs) := by
  cases vs with
  | nil => exact absurd rfl h
  | cons w ws => rfl

theorem pollComplete_append_singleton (before : List Word) (last : Word) :
    pollComplete (before ++ [last]) = (before.all pollGoesOn && !pollGoesOn last) := by
  induction before with
  | nil => rfl
  | cons v vs ih => rw [List.cons_append, pollComplete_cons (by simp), ih, List.all_cons, Bool.and_assoc]

theorem pollComplete_iff (values : List Word) :
    pollComplete values = true ↔
      ∃ (before : List Word) (last : Word), values = before ++ [last] ∧ last.getLsbD 0 = false ∧
        ∀ v ∈ before, v.getLsbD 0 = true := by
  have hparts : ∀ before last, pollComplete (before ++ [last]) = true ↔
      last.getLsbD 0 = false ∧ ∀ v ∈ before, v.getLsbD 0 = true := fun before last => by
    simp only [pollComplete_append_singleton, pollGoesOn, Bool.and_eq_true, List.all_eq_true, Bool.not_eq_true',
      and_comm]
  constructor
  · intro h
    obtain rfl | ⟨before, last, rfl⟩ := values.eq_nil_or_concat'
    · cases h
    · exact ⟨before, last, rfl, (hparts before last).mp h⟩
  · rintro ⟨before, last, rfl, h⟩
    exact (hparts before last).mpr h

/-- A bit outside the drawn ones is read exactly (44_host_access.md R247). -/
theorem readValue_getLsbD {s : State} {r : Reg} {i : Nat} (hi : i < 32)
    (h : (drawnBits (modeBits s.phase) r).getLsbD i = false) :
    (s.readValue r).getLsbD i = (s.readExact r).getLsbD i := by
  simpa only [BitVec.getLsbD_and, BitVec.getLsbD_not, h, hi, decide_true, Bool.not_false, Bool.and_true] using
    congrArg (BitVec.getLsbD · i) (readValue_exact_bits s r)

/-- BUSY is never drawn (R247). -/
theorem drawnBits_status_busy (p : Phase) : (drawnBits (modeBits p) .status).getLsbD 0 = false := by
  cases p <;> decide

theorem pollGoesOn_readValue_iff (s : State) : pollGoesOn (s.readValue (regAt 1)) = true ↔ s.phase ≠ .idle := by
  rw [← busy_eq_true, ← statusWord_busy]
  exact Bool.eq_iff_iff.mp (readValue_getLsbD (by decide) (drawnBits_status_busy s.phase))

/-- Settles O60, statement by statement. -/
theorem pseudoInstructionsExpand : Obligations.PseudoInstructionsExpand := by
  unfold Obligations.PseudoInstructionsExpand
  refine ⟨fun _ _ _ => ⟨rfl, rfl⟩, ⟨by decide, by decide, by decide, by decide, expand_pack⟩, fun _ _ ev => run_setCr ev,
    fun _ _ ev => run_setCi ev, ?w1c, ?poll, pollComplete_iff, pollGoesOn_readValue_iff,
    fun _ _ _ => rfl, fun _ _ _ _ => run_testPt⟩
  case w1c => exact fun s m ev => run_succ_of_access ev rfl
  case poll => exact fun again => ⟨List.length_replicate, fun _ => List.eq_of_mem_replicate⟩

end Sys2Proof.Machine
end

section
/-!
The result of a point and the NaN patterns drawn (40_fp_datapath.md R131, 41_escape_test.md R157).
-/

namespace Sys2Proof.Machine

/-- Settles O44: two runs of a point's loop from one start agree, whatever they draw. -/
theorem escapeTestIgnoresNaNDraws : Obligations.EscapeTestIgnoresNaNDraws := by
  unfold Obligations.EscapeTestIgnoresNaNDraws
  intro n m cr ci
  exact escapeLoop_eq_of_sameUpToNaN Config.iterMax n m false (.refl (.pointStart cr ci))

end Sys2Proof.Machine
end

section
/-!
Rounding to nearest (40_fp_datapath.md R123): a magnitude binary64 holds lies outside the two neighbours of the exact
value, the quotient goes to the nearer one and at a tie to the even one, and 2^1024 is reached from half a spacing
below it on.
-/

namespace Sys2Proof.Machine

/-! ### The quotient -/

theorem roundQuotient_eq (n d : Nat) :
    roundQuotient n d = if 2 * (n % d) > d ∨ (2 * (n % d) = d ∧ n / d % 2 = 1) then n / d + 1 else n / d := rfl

section
variable {n d : Nat} (hd : 0 < d)
include hd

/-- The rounded quotient is nearest among the numbers that are not strictly between its two neighbours. -/
theorem roundQuotient_nearest {v : Int} (hv : v ≤ (n / d * d : Nat) ∨ ((n / d + 1) * d : Nat) ≤ v) :
    ((roundQuotient n d * d : Nat) - n : Int).natAbs ≤ (v - n).natAbs ∧
      (((roundQuotient n d * d : Nat) - n : Int).natAbs = (v - n).natAbs → v ≠ (roundQuotient n d * d : Nat) →
        roundQuotient n d % 2 = 0) := by
  have hn : n / d * d + n % d = n := Nat.div_add_mod' n d
  have hr : n % d < d := Nat.mod_lt n hd
  rw [Nat.succ_mul] at hv
  rw [roundQuotient_eq]
  split_ifs with hup
  · rw [Nat.succ_mul]
    omega
  · omega

/-- The quotient goes up from an odd floor exactly from the half on. -/
theorem succ_le_roundQuotient_iff {c : Nat} (hc : c % 2 = 1) : c + 1 ≤ roundQuotient n d ↔ (2 * c + 1) * d ≤ 2 * n := by
  have hn : n / d * d + n % d = n := Nat.div_add_mod' n d
  have hr : n % d < d := Nat.mod_lt n hd
  have hc' : (2 * c + 1) * d = 2 * (c * d) + d := by ring
  rcases lt_trichotomy (n / d) c with hlt | rfl | hgt
  · have hstep : n / d * d + d ≤ c * d := by rw [← Nat.succ_mul]; exact Nat.mul_le_mul_right d hlt
    have hq : roundQuotient n d ≤ n / d + 1 := by rw [roundQuotient_eq]; split_ifs <;> omega
    omega
  · rw [roundQuotient_eq]
    split_ifs <;> omega
  · have hstep : c * d + d ≤ n / d * d := by rw [← Nat.succ_mul]; exact Nat.mul_le_mul_right d hgt
    have hq : n / d ≤ roundQuotient n d := le_roundQuotient hd (Nat.div_mul_le_self n d)
    omega

end

/-! ### The spacing of a binade -/

/-- Below 2^53 units the spacing is 1, and from there on the significand has its leading bit. -/
theorem spacing_eq_one_or_le_div (n d : Nat) : spacing n d = 1 ∨ 2 ^ 52 ≤ n / (d * spacing n d) := by
  rcases Nat.lt_or_ge (Nat.log2 (n / d)) 53 with hl | hl
  · exact .inl (by rw [spacing, show max (Nat.log2 (n / d)) 52 - 52 = 0 by omega, pow_zero])
  · right
    have hne : n / d ≠ 0 := fun h0 => by simp [h0] at hl
    rw [← Nat.div_div_eq_div_mul, Nat.le_div_iff_mul_le (spacing_pos n d)]
    calc 2 ^ 52 * spacing n d = 2 ^ Nat.log2 (n / d) := by rw [spacing, ← pow_add]; congr 1; omega
      _ ≤ n / d := Nat.log2_self_le hne

theorem spacing_eq {n d g : Nat} (hd : 0 < d) (h : 2 ^ 52 * 2 ^ g * d ≤ n) (h' : n < 2 ^ 53 * 2 ^ g * d) :
    spacing n d = 2 ^ g := by
  have hlow : 2 ^ (52 + g) ≤ n / d := by rw [pow_add]; exact (Nat.le_div_iff_mul_le hd).mpr h
  have hhigh : n / d < 2 ^ (52 + g + 1) := by
    rw [show 52 + g + 1 = 53 + g by omega, pow_add]
    exact (Nat.div_lt_iff_lt_mul hd).mpr h'
  have hne : n / d ≠ 0 := by have := Nat.two_pow_pos (52 + g); omega
  rw [spacing, (Nat.log2_eq_iff hne).mpr ⟨hlow, hhigh⟩]
  congr 1
  omega

/-- No magnitude that binary64 holds lies strictly between the two neighbours of n/d. -/
theorem Spaced.le_or_le {n d u : Nat} (hu : Spaced u) :
    u ≤ n / (d * spacing n d) * spacing n d ∨ (n / (d * spacing n d) + 1) * spacing n d ≤ u := by
  by_cases hdvd : spacing n d ∣ u
  · obtain ⟨c, rfl⟩ := hdvd
    rw [mul_comm (spacing n d) c]
    rcases Nat.lt_or_ge (n / (d * spacing n d)) c with h | h
    · exact .inr (Nat.mul_le_mul_right _ h)
    · exact .inl (Nat.mul_le_mul_right _ h)
  · left
    have hlog := mt (spacing_dvd (n := n) (d := d) hu) hdvd
    rw [not_or] at hlog
    obtain ⟨hbelow, hnormal⟩ := hlog
    have hq : 2 ^ 52 ≤ n / (d * spacing n d) :=
      (spacing_eq_one_or_le_div n d).resolve_left fun h => hdvd (h ▸ one_dvd u)
    calc u ≤ 2 ^ (Nat.log2 u + 1) := Nat.lt_log2_self.le
      _ ≤ 2 ^ (52 + (max (Nat.log2 (n / d)) 52 - 52)) := Nat.pow_le_pow_right (by norm_num) (by omega)
      _ = 2 ^ 52 * spacing n d := pow_add _ _ _
      _ ≤ n / (d * spacing n d) * spacing n d := Nat.mul_le_mul_right _ hq

/-! ### The magnitude -/

section
variable {n d : Nat} (hd : 0 < d)
include hd

/-- The rounded magnitude is at least as near as any magnitude binary64 holds, of either sign; at a tie with another
one the significand is even. -/
theorem roundMag_nearest {u : Int} (hu : Spaced u.natAbs) :
    (roundMag n d * d - n : Int).natAbs ≤ (u * d - n).natAbs ∧
      ((roundMag n d * d - n : Int).natAbs = (u * d - n).natAbs → u ≠ roundMag n d →
        roundQuotient n (d * spacing n d) % 2 = 0) := by
  have hD : 0 < d * spacing n d := Nat.mul_pos hd (spacing_pos n d)
  have hM : (roundMag n d * d : Int) = (roundQuotient n (d * spacing n d) * (d * spacing n d) : Nat) := by
    unfold roundMag; push_cast; ring
  have hneighbours : u * d ≤ (n / (d * spacing n d) * (d * spacing n d) : Nat) ∨
      ((n / (d * spacing n d) + 1) * (d * spacing n d) : Nat) ≤ u * d := by
    have hscale : ∀ c : Nat, ((c * (d * spacing n d) : Nat) : Int) = (c * spacing n d : Nat) * d := fun c => by
      push_cast; ring
    rw [hscale, hscale]
    rcases hu.le_or_le (n := n) (d := d) with h | h
    · exact .inl (mul_le_mul_of_nonneg_right (by omega) (by omega))
    · rcases lt_or_ge u 0 with hneg | hpos
      · exact .inl (mul_le_mul_of_nonneg_right (by omega) (by omega))
      · exact .inr (mul_le_mul_of_nonneg_right (by omega) (by omega))
  rw [hM]
  refine (roundQuotient_nearest hD hneighbours).imp_right fun htie heq hne => htie heq fun h => hne ?_
  rw [← hM] at h
  exact mul_right_cancel₀ (by omega) h

/-- Rounding reaches 2^1024 exactly from half a spacing below it on. -/
theorem overflow_le_roundMag_iff : overflowUnits ≤ roundMag n d ↔ (2 ^ 54 - 1) * overflowUnits * d ≤ 2 ^ 54 * n := by
  obtain ⟨g, hO⟩ : ∃ g, overflowUnits = 2 ^ 53 * 2 ^ g := ⟨2045, overflowUnits_eq 53 2045 rfl⟩
  have hspaced : ∀ {c : Nat}, c ≤ 2 ^ 53 → Spaced (c * 2 ^ g) := spaced_mul_pow
  have hpos : 0 < 2 ^ g * d := Nat.mul_pos (Nat.two_pow_pos g) hd
  rw [hO]
  rcases Nat.lt_or_ge n (2 ^ 52 * 2 ^ g * d) with hlow | hlow
  · have hle : roundMag n d ≤ 2 ^ 52 * 2 ^ g := roundMag_le hd (hspaced (by norm_num)) hlow.le
    have hg : 0 < 2 ^ g := Nat.two_pow_pos g
    simp only [mul_assoc] at hlow ⊢
    omega
  · rcases Nat.lt_or_ge n (2 ^ 53 * 2 ^ g * d) with hhigh | hhigh
    · have hq : spacing n d = 2 ^ g := spacing_eq hd hlow hhigh
      rw [roundMag, hq, Nat.mul_le_mul_right_iff (Nat.two_pow_pos g),
        show 2 ^ 53 = 2 ^ 53 - 1 + 1 from rfl, succ_le_roundQuotient_iff (by rwa [mul_comm] at hpos) (by norm_num),
        mul_comm d]
      simp only [mul_assoc]
      omega
    · have hle : 2 ^ 53 * 2 ^ g ≤ roundMag n d := le_roundMag hd (hspaced le_rfl) hhigh
      simp only [mul_assoc] at hhigh hle ⊢
      omega

end

/-! ### The significand -/

/-- A significand of the width its binade asks for has the parity of the trailing field. -/
theorem fracOf_ofMag_mod_two {s : Bool} {k g : Nat} (hk : k ≤ 2 ^ 53) (hg : 2 ^ g = 1 ∨ 2 ^ 52 ≤ k) :
    fracOf (ofMag s (k * 2 ^ g)) % 2 = k % 2 := by
  rcases Nat.lt_or_ge k (2 ^ 52) with hsub | hnorm
  · rw [hg.resolve_right (by omega), mul_one, ofMag, if_pos hsub, fracOf_assemble]
    omega
  · rcases Nat.lt_or_ge k (2 ^ 53) with hlt | hge
    · rw [ofMag_normal hnorm hlt, fracOf_assemble]
      omega
    · obtain rfl : k = 2 ^ 53 := le_antisymm hk hge
      rw [show 2 ^ 53 * 2 ^ g = 2 ^ 52 * 2 ^ (g + 1) by ring, ofMag_normal le_rfl (by norm_num), fracOf_assemble]
      norm_num

theorem fracOf_ofMag_roundMag_mod_two {n d : Nat} {s : Bool} (hd : 0 < d) :
    fracOf (ofMag s (roundMag n d)) % 2 = roundQuotient n (d * spacing n d) % 2 := by
  have hD : 0 < d * spacing n d := Nat.mul_pos hd (spacing_pos n d)
  exact fracOf_ofMag_mod_two (roundQuotient_bound n d hd)
    ((spacing_eq_one_or_le_div n d).imp_right fun h => h.trans (le_roundQuotient hD (Nat.div_mul_le_self _ _)))

/-! ### The pattern -/

section
variable {r : Int} {d : Nat} {s : Bool} (hd : 0 < d)
include hd

theorem round_eq_ofMag (h : roundMag r.natAbs d < overflowUnits) :
    round r d s = ofMag (if r = 0 then s else decide (r < 0)) (roundMag r.natAbs d) := by
  obtain ⟨-, hm, hs⟩ := round_finite (s := s) hd h
  rw [← ofMag_mag (round r d s), hm, hs]

/-- The rounding either keeps its magnitude, or is an infinity of a value that is not 0. -/
theorem round_cases :
    roundMag r.natAbs d < overflowUnits ∧ isfinite (round r d s) = true ∨
      overflowUnits ≤ roundMag r.natAbs d ∧ r ≠ 0 ∧ round r d s = infOf (decide (r < 0)) := by
  rcases Nat.lt_or_ge (roundMag r.natAbs d) overflowUnits with h | h
  · exact .inl ⟨h, (round_finite hd h).1⟩
  · have h0 : r ≠ 0 := by
      rintro rfl
      have hzero : roundMag 0 d = 0 := by simp [roundMag, roundQuotient]
      exact absurd overflowUnits_pos (by simpa [hzero] using h)
    exact .inr ⟨h, h0, round_overflow h0 h⟩

theorem isfinite_round_eq_false_iff : isfinite (round r d s) = false ↔ overflowUnits ≤ roundMag r.natAbs d := by
  rcases round_cases (r := r) (s := s) hd with ⟨hlt, hfin⟩ | ⟨hge, -, hinf⟩
  · simp [hfin, hlt]
  · simp [hinf, hge]

theorem signOf_round : signOf (round r d s) = if r = 0 then s else decide (r < 0) := by
  rcases round_cases (r := r) (s := s) hd with ⟨hlt, -⟩ | ⟨-, h0, hinf⟩
  · exact (round_finite hd hlt).2.2
  · simp [hinf, h0]

/-- A finite rounding is nearest, and even at a tie: the claim of a magnitude, with the sign of r on both sides. -/
theorem round_nearest (h : isfinite (round r d s) = true) (q : F64) :
    (val (round r d s) * d - r).natAbs ≤ (val q * d - r).natAbs ∧
      ((val (round r d s) * d - r).natAbs = (val q * d - r).natAbs → val q ≠ val (round r d s) →
        fracOf (round r d s) % 2 = 0) := by
  have hM : roundMag r.natAbs d < overflowUnits := by
    by_contra hge
    rw [(isfinite_round_eq_false_iff hd).mpr (by omega)] at h
    cases h
  rw [val_round hd hM, round_eq_ofMag hd hM, fracOf_ofMag_roundMag_mod_two hd]
  split_ifs with hneg
  · have hflip : ∀ v : Int, (v * d - r).natAbs = (-v * d - r.natAbs).natAbs := fun v => by
      rw [show -v * (d : Int) = -(v * d) by ring]
      omega
    have hnear := roundMag_nearest (n := r.natAbs) hd (u := -val q) (by
      rw [Int.natAbs_neg, natAbs_val]; exact mag_spaced q)
    rw [hflip (val q), hflip, neg_neg]
    exact hnear.imp_right fun htie heq hne => htie heq (by omega)
  · have hnear := roundMag_nearest (n := r.natAbs) hd (u := val q) (by rw [natAbs_val]; exact mag_spaced q)
    rwa [Int.natAbs_of_nonneg (by omega)] at hnear

end

/-- Settles O53: the nearest pattern, the sign, and the two outcomes at 2^1024. -/
theorem roundToNearestTiesToEven : Obligations.RoundToNearestTiesToEven := by
  unfold Obligations.RoundToNearestTiesToEven
  intro r d s hd
  refine ⟨fun h q _ => round_nearest hd h q, signOf_round hd, ?overflow, ?infinity⟩
  case overflow => exact (isfinite_round_eq_false_iff hd).trans (overflow_le_roundMag_iff hd)
  case infinity =>
    intro h
    rcases round_cases (r := r) (s := s) hd with ⟨-, hfin⟩ | ⟨-, -, hinf⟩
    · simp [hfin] at h
    · simp [hinf]

end Sys2Proof.Machine
end

section
/-!
The converter and the doubling of a binary64 value are exact (40_fp_datapath.md R128, R133).
-/

namespace Sys2Proof.Machine

/-- Settles O57: an integer of the converter's domain is a binary64 magnitude (R128). -/
theorem conversionIsExact : Obligations.ConversionIsExact := by
  unfold Obligations.ConversionIsExact
  refine ⟨fun n hn => ⟨ofMag false (n * oneUnits), if_pos hn, ?exact⟩, ?zero, fun n hn => if_neg (by omega)⟩
  case exact =>
    obtain ⟨hfin, hmag⟩ := natural_pattern hn
    exact ⟨hfin, signOf_ofMag _ _, by simp [val, hmag]⟩
  case zero => simp [i2f, ofMag, zeroOf]

/-! ### Doubling -/

theorem Spaced.two_mul {u : Nat} (hu : Spaced u) : Spaced (2 * u) := by
  rcases spaced_cases hu with hsub | ⟨m, g, -, hm, rfl⟩
  · exact spaced_of_lt (by omega)
  · rw [show 2 * (m * 2 ^ g) = m * 2 ^ (g + 1) by ring]
    exact spaced_mul_pow hm.le

theorem val_two : val two = 2 * oneUnits := by simp [val, signOf_two, mag_two]

/-- The product with 2.0 is the rounding of the doubled value. -/
theorem fmul_two {n : Nat} {a : F64} (ha : isfinite a = true) :
    fmul n two a = round (2 * val a * oneUnits) oneUnits (signOf a) := by
  rw [fmul_of_finite isfinite_two ha, signOf_two, Bool.false_bne, val_two, mul_right_comm]

theorem val_ofMag_double {a : F64} (h : 2 * mag a < overflowUnits) : val (ofMag (signOf a) (2 * mag a)) = 2 * val a := by
  rw [val, signOf_ofMag, mag_ofMag (mag_spaced a).two_mul h, val]
  split <;> push_cast <;> ring

/-- Below 2^1024 the double is a pattern's value, which rounds to itself. -/
theorem fmul_two_of_lt {n : Nat} {a : F64} (ha : isfinite a = true) (h : 2 * mag a < overflowUnits) :
    fmul n two a = ofMag (signOf a) (2 * mag a) := by
  have hround := round_val_mul _ oneUnits (isfinite_ofMag (s := signOf a) (mag_spaced a).two_mul h) oneUnits_pos
  rwa [val_ofMag_double h, signOf_ofMag, ← fmul_two ha] at hround

theorem fmul_two_of_ge {n : Nat} {a : F64} (ha : isfinite a = true) (h : overflowUnits ≤ 2 * mag a) :
    fmul n two a = infOf (signOf a) := by
  have hone : (0 : Int) < oneUnits := Int.natCast_pos.mpr oneUnits_pos
  have hmag : roundMag (2 * val a * oneUnits).natAbs oneUnits = 2 * mag a := by
    rw [Int.natAbs_mul, Int.natAbs_mul, natAbs_val, Int.natAbs_natCast]
    exact roundMag_exact oneUnits_pos (mag_spaced a).two_mul
  have hne : val a ≠ 0 := by
    have := overflowUnits_pos
    rw [← Int.natAbs_ne_zero, natAbs_val]
    omega
  have hsign : decide (2 * val a * oneUnits < 0) = signOf a := by
    rw [← decide_val_neg hne, decide_eq_decide, mul_neg_iff]
    omega
  rw [fmul_two ha, round_overflow (mul_ne_zero (mul_ne_zero two_ne_zero hne) hone.ne') (hmag ▸ h), hsign]

/-- Settles O55: on both sides of 2^1023. -/
theorem doublingIsExact : Obligations.DoublingIsExact := by
  unfold Obligations.DoublingIsExact
  intro n a ha
  refine ⟨fun h => ?exact, fmul_two_of_ge ha⟩
  case exact =>
    have hdouble : fmul n 0x4000000000000000#64 a = ofMag (signOf a) (2 * mag a) := fmul_two_of_lt ha h
    rw [hdouble]
    exact ⟨val_ofMag_double h, signOf_ofMag _ _⟩

end Sys2Proof.Machine
end

section
/-!
The adder, the multiplier and the comparator on NaNs, infinities and zeros (40_fp_datapath.md R124 to R127).
-/

namespace Sys2Proof.Machine

section
variable {n : Nat} {a b : F64}

/-! ### NaN operands -/

theorem fadd_eq_someNaN (h : isNaN a = true ∨ isNaN b = true) : fadd n a b = someNaN n :=
  h.elim fadd_nan_left fadd_nan_right

theorem fsub_eq_someNaN (h : isNaN a = true ∨ isNaN b = true) : fsub n a b = someNaN n :=
  fadd_eq_someNaN (by rwa [isNaN_neg])

theorem fmul_eq_someNaN (h : isNaN a = true ∨ isNaN b = true) : fmul n a b = someNaN n :=
  h.elim fmul_nan_left fmul_nan_right

theorem fgt_eq_false_of_isNaN (h : isNaN a = true ∨ isNaN b = true) : fgt a b = false :=
  if_pos (by rwa [Bool.or_eq_true])

/-! ### Finite operands -/

theorem fsub_of_finite (ha : isfinite a = true) (hb : isfinite b = true) :
    fsub n a b = if isZero a = true ∧ isZero b = true ∧ signOf a ≠ signOf b then a
      else round (val a - val b) 1 false := by
  rw [fsub, fadd_of_finite ha (by rwa [isfinite_neg]), val_neg, ← sub_eq_add_neg]
  simp only [isZero_neg, signOf_neg, Bool.and_eq_true, beq_iff_eq, Bool.eq_not, and_assoc]

theorem fmul_zeroOf_left (s : Bool) (hb : isfinite b = true) : fmul n (zeroOf s) b = zeroOf (s != signOf b) := by
  rw [fmul_of_finite (isfinite_zeroOf s) hb, val_zeroOf, zero_mul, round_zero, signOf_zeroOf]

theorem fmul_zeroOf_right (s : Bool) (ha : isfinite a = true) : fmul n a (zeroOf s) = zeroOf (signOf a != s) := by
  rw [fmul_of_finite ha (isfinite_zeroOf s), val_zeroOf, mul_zero, round_zero, signOf_zeroOf]

theorem fsub_self (ha : isfinite a = true) : fsub n a a = zeroOf false := by
  rw [fsub_of_finite ha ha, if_neg (by simp), sub_self, round_zero]

theorem fadd_zeroOf_self (s : Bool) : fadd n (zeroOf s) (zeroOf s) = zeroOf s := by
  simp [fadd_of_finite (isfinite_zeroOf s) (isfinite_zeroOf s)]

theorem fsub_zeroOf_not (s : Bool) : fsub n (zeroOf s) (zeroOf !s) = zeroOf s := by
  rw [fsub, neg_zeroOf, Bool.not_not, fadd_zeroOf_self]

/-! ### One infinite operand -/

theorem fadd_infOf_left (s : Bool) (hb : isfinite b = true) : fadd n (infOf s) b = infOf s := by
  obtain ⟨hnan, hinf⟩ := finite_not_nan hb
  simp [fadd, hnan, hinf]

theorem fadd_infOf_right (s : Bool) (ha : isfinite a = true) : fadd n a (infOf s) = infOf s := by
  obtain ⟨hnan, hinf⟩ := finite_not_nan ha
  simp [fadd, hnan, hinf]

theorem fsub_infOf_left (s : Bool) (hb : isfinite b = true) : fsub n (infOf s) b = infOf s :=
  fadd_infOf_left s (by rwa [isfinite_neg])

theorem fsub_infOf_right (s : Bool) (ha : isfinite a = true) : fsub n a (infOf s) = infOf (!s) := by
  rw [fsub, neg_infOf, fadd_infOf_right _ ha]

theorem fgt_infOf_left (s : Bool) (hb : isfinite b = true) : fgt (infOf s) b = !s := by
  have hbounds := val_between hb
  rw [fgt_of_numbers (isNaN_infOf s) (finite_not_nan hb).1, val_infOf]
  cases s with
  | false => simp [hbounds.2]
  | true => simp [hbounds.1.le]

theorem fgt_infOf_right (s : Bool) (ha : isfinite a = true) : fgt a (infOf s) = s := by
  have hbounds := val_between ha
  rw [fgt_of_numbers (finite_not_nan ha).1 (isNaN_infOf s), val_infOf]
  cases s with
  | false => simp [hbounds.2.le]
  | true => simp [hbounds.1]

theorem fmul_infOf_left (s : Bool) (hn : isNaN b = false) (hz : isZero b = false) :
    fmul n (infOf s) b = infOf (s != signOf b) := by simp [fmul, hn, hz]

theorem fmul_infOf_right (s : Bool) (hn : isNaN a = false) (hz : isZero a = false) :
    fmul n a (infOf s) = infOf (signOf a != s) := by simp [fmul, hn, hz]

theorem fmul_infOf_zeroOf (s t : Bool) : fmul n (infOf s) (zeroOf t) = someNaN n := by simp [fmul]

theorem fmul_zeroOf_infOf (s t : Bool) : fmul n (zeroOf t) (infOf s) = someNaN n := by simp [fmul]

/-! ### Two infinite operands -/

theorem fadd_infOf_infOf (s t : Bool) : fadd n (infOf s) (infOf t) = if s = t then infOf s else someNaN n := by
  by_cases h : s = t <;> simp [fadd, h]

theorem fsub_infOf_infOf (s t : Bool) : fsub n (infOf s) (infOf t) = if s = t then someNaN n else infOf s := by
  rw [fsub, neg_infOf, fadd_infOf_infOf]
  by_cases h : s = t <;> simp [h]

theorem fgt_infOf_infOf (s t : Bool) : fgt (infOf s) (infOf t) = (!s && t) := by
  have hless : -(overflowUnits : Int) < overflowUnits := by have := overflowUnits_pos; omega
  rw [fgt_of_numbers (isNaN_infOf s) (isNaN_infOf t), val_infOf, val_infOf]
  cases s <;> cases t <;> simp [hless]

end

/-- Settles O56, class by class: an infinity and a zero are the patterns infOf and zeroOf of their sign. -/
theorem specialCases : Obligations.SpecialCases := by
  unfold Obligations.SpecialCases
  refine ⟨fun n a b => ⟨?nan, ?finite, ?infFinite, ?infInf, ?infZero, ?infNumber, ?zeroFinite, ?zeroZero, ?self⟩, ?zeros,
    fgt_infOf_left false (by decide +kernel), by decide +kernel, by decide +kernel, by decide +kernel⟩
  case nan =>
    intro h
    rw [fadd_eq_someNaN h, fsub_eq_someNaN h, fmul_eq_someNaN h]
    exact ⟨isNaN_someNaN n, isNaN_someNaN n, isNaN_someNaN n, fgt_eq_false_of_isNaN h⟩
  case finite =>
    intro ha hb
    have hadd : fadd n a b = if isZero a = true ∧ isZero b = true ∧ signOf a = signOf b then a
        else round (val a + val b) 1 false := by
      simp only [fadd_of_finite ha hb, Bool.and_eq_true, beq_iff_eq, and_assoc]
    rw [hadd, fsub_of_finite ha hb, fgt_of_numbers (finite_not_nan ha).1 (finite_not_nan hb).1]
    exact ⟨fun h => if_pos h, fun h => if_neg h, fun h => if_pos h, fun h => if_neg h,
      fmul_of_finite ha hb, decide_eq_true_iff⟩
  case infFinite =>
    intro ha hb
    rw [eq_infOf ha, signOf_infOf]
    exact ⟨fadd_infOf_left _ hb, fadd_infOf_right _ hb, fsub_infOf_left _ hb, fsub_infOf_right _ hb,
      fgt_infOf_left _ hb, fgt_infOf_right _ hb⟩
  case infInf =>
    intro ha hb
    rw [eq_infOf ha, eq_infOf hb, signOf_infOf, signOf_infOf, fadd_infOf_infOf, fsub_infOf_infOf]
    refine ⟨fun h => ?_, fun h => ?_, fgt_infOf_infOf _ _⟩
    · rw [if_pos h, if_pos h]
      exact ⟨rfl, isNaN_someNaN n⟩
    · rw [if_neg h, if_neg h]
      exact ⟨isNaN_someNaN n, rfl⟩
  case infZero =>
    intro ha hb
    rw [eq_infOf ha, eq_zeroOf hb, fmul_infOf_zeroOf, fmul_zeroOf_infOf]
    exact ⟨isNaN_someNaN n, isNaN_someNaN n⟩
  case infNumber =>
    intro ha hn hz
    rw [eq_infOf ha, signOf_infOf]
    exact ⟨fmul_infOf_left _ hn hz, (fmul_infOf_right _ hn hz).trans (by rw [bne_comm])⟩
  case zeroFinite =>
    intro ha hb
    rw [eq_zeroOf ha, signOf_zeroOf]
    exact ⟨fmul_zeroOf_left _ hb, (fmul_zeroOf_right _ hb).trans (by rw [bne_comm])⟩
  case zeroZero =>
    intro ha hb
    rw [eq_zeroOf ha, eq_zeroOf hb]
    simp [fgt]
  case self =>
    intro ha
    have hself : fadd n a (neg a) = zeroOf false := fsub_self ha
    rw [fgt_of_numbers (finite_not_nan ha).1 (finite_not_nan ha).1]
    exact ⟨hself, hself, by simp⟩
  case zeros =>
    intro n
    exact ⟨fadd_zeroOf_self true, fadd_zeroOf_self false, fsub_zeroOf_not true, fsub_self (isfinite_zeroOf false)⟩

end Sys2Proof.Machine
end

section
/-!
TEST and ITER (41_escape_test.md R150 to R159): acceptance, one iteration, the T_ITER step by the outcome of R155, and
the whole command against `escape_test`.
-/

namespace Sys2Proof.Machine

/-- Settles O9: POINT_START of (CR, CI) in an idle state. -/
theorem testAccepted : Obligations.TestAccepted := by
  unfold Obligations.TestAccepted
  intro s hs
  exact acceptCommand_idle hs

/-! ### One ITER -/

/-- The check of R156, value by value. -/
theorem nonFinite_eq_true_iff (n : Nat) (u : Etu) :
    u.nonFinite n = true ↔
      ∃ p ∈ [u.crq, u.ciq, (iterValues n u).t1, (iterValues n u).zr, (iterValues n u).t2, (iterValues n u).t3,
        (iterValues n u).zi, (iterValues n u).zrzr, (iterValues n u).zizi, (iterValues n u).s], isfinite p = false := by
  simp [Etu.nonFinite, or_assoc]

/-- Settles O33: the values are those of `iterValues`. -/
theorem iterUpdatesInOrder : Obligations.IterUpdatesInOrder := by
  unfold Obligations.IterUpdatesInOrder
  intro n u
  exact ⟨(iterValues n u).t1, (iterValues n u).zr, (iterValues n u).t2, (iterValues n u).t3, (iterValues n u).zi,
    (iterValues n u).zrzr, (iterValues n u).zizi, (iterValues n u).s, rfl, rfl, rfl, rfl, rfl, rfl, rfl, rfl, rfl,
    nonFinite_eq_true_iff n u⟩

/-! ### The outcomes of one ITER (R155) -/

theorem finished_of_escape {u : Etu} (h : u.escape = true) : u.finished = true := by simp [Etu.finished, h]

theorem finished_eq_of_not_escape {u : Etu} (h : u.escape = false) : u.finished = decide (u.it.toNat = 50) := by
  rw [Etu.finished, h, Bool.false_or]
  rfl

theorem engineStep_tIter {s : State} (hp : s.phase = .tIter) : s.engineStep = .next s.tIterStep := by
  rw [State.engineStep, hp]

/-- The engine step in T_ITER, by whether the point is finished (R159). -/
theorem engineStep_tIter_of_finished {s : State} (hp : s.phase = .tIter) (hf : (s.etu.iter s.draws).finished = true) :
    s.engineStep = .next
      { s with
        etu := s.etu.iter s.draws, nf := s.nf || s.etu.nonFinite s.draws, draws := s.draws + drawsPerIter
        esc := (s.etu.iter s.draws).escape, count := (s.etu.iter s.draws).it, phase := .idle, done := true } := by
  rw [engineStep_tIter hp, tIterStep_eq, if_pos hf, iterate_of_finished hf]

theorem engineStep_tIter_of_goesOn {s : State} (hp : s.phase = .tIter) (hf : (s.etu.iter s.draws).finished = false) :
    s.engineStep = .next
      { s with
        etu := s.etu.iter s.draws, nf := s.nf || s.etu.nonFinite s.draws, draws := s.draws + drawsPerIter } := by
  rw [engineStep_tIter hp, tIterStep_eq, if_neg (by simp [hf]), iterate_of_goesOn hf]

/-- Settles O34: the point escaped, took its 50th iteration, or goes on. -/
theorem testStep : Obligations.TestStep := by
  unfold Obligations.TestStep
  intro s hp
  split_ifs with he hit
  · rw [engineStep_tIter_of_finished hp (finished_of_escape he), he]
    rfl
  · rw [Bool.not_eq_true] at he
    have hf : (s.etu.iter s.draws).finished = true := by rw [finished_eq_of_not_escape he]; exact decide_eq_true hit
    have hcount : (s.etu.iter s.draws).it = 50 := BitVec.eq_of_toNat_eq hit
    rw [engineStep_tIter_of_finished hp hf, he, hcount]
    rfl
  · rw [Bool.not_eq_true] at he
    have hf : (s.etu.iter s.draws).finished = false := by rw [finished_eq_of_not_escape he]; exact decide_eq_false hit
    exact engineStep_tIter_of_goesOn hp hf

/-! ### The loop of `escape_test`, one ITER at a time (R157) -/

section
variable {k n : Nat} {nf : Bool} {u : Etu}

theorem escapeLoop_of_finished (hk : u.it.toNat + (k + 1) = 50) (hf : (u.iter n).finished = true) :
    escapeLoop (k + 1) n nf u = ⟨(u.iter n).escape, (u.iter n).it, nf || u.nonFinite n⟩ := by
  rw [escapeLoop]
  cases he : (u.iter n).escape with
  | true => rfl
  | false =>
    have hit := it_eq_of_finished hf he
    rw [iter_it_toNat_of_lt (by omega)] at hit
    obtain rfl : k = 0 := by omega
    rfl

theorem escapeLoop_of_goesOn (hf : (u.iter n).finished = false) :
    escapeLoop (k + 1) n nf u = escapeLoop k (n + drawsPerIter) (nf || u.nonFinite n) (u.iter n) := by
  rw [escapeLoop, if_neg (by simp [(Bool.or_eq_false_iff.mp hf).1])]

end

/-! ### The whole TEST -/

theorem engineSteps_succ {s u : State} (h : s.engineStep = .next u) (n : Nat) :
    s.engineSteps (n + 1) = u.engineSteps n := by
  simp only [State.engineSteps, h]

/-- `n` engine steps from `s` end the TEST in `t` with the result `r`, and fewer leave it in T_ITER. -/
structure TestEndsAfter (s : State) (r : PointResult) (n : Nat) (t : State) : Prop where
  steps : s.engineSteps n = .next t
  result : t = { s with phase := .idle, done := true, esc := r.esc, count := r.count, nf := r.nf,
                        etu := t.etu, draws := t.draws }
  busy : ∀ m, m < n → ∃ u, s.engineSteps m = .next u ∧ u.phase = .tIter

theorem TestEndsAfter.cons {s u t : State} {r : PointResult} {n : Nat} (hp : s.phase = .tIter)
    (hu : s.engineStep = .next u) (frame : u = { s with etu := u.etu, nf := u.nf, draws := u.draws })
    (h : TestEndsAfter u r n t) : TestEndsAfter s r (n + 1) t where
  steps := (engineSteps_succ hu n).trans h.steps
  result := by
    have hr := h.result
    rw [frame] at hr
    exact hr
  busy := fun m hm =>
    match m with
    | 0 => ⟨s, rfl, hp⟩
    | m + 1 => by
      rw [engineSteps_succ hu]
      exact h.busy m (by omega)

/-- With `k` iterations left, the TEST in work takes the engine steps up to the count of the loop of `escape_test`. -/
theorem testEndsAfter_of_tIter (k : Nat) {s : State} (hp : s.phase = .tIter) (hk : s.etu.it.toNat + k = 50)
    (hlt : s.etu.it.toNat < 50) :
    ∃ n t, (escapeLoop k s.draws s.nf s.etu).count.toNat = s.etu.it.toNat + (n + 1) ∧ n < k ∧
      TestEndsAfter s (escapeLoop k s.draws s.nf s.etu) (n + 1) t := by
  induction k generalizing s with
  | zero => omega
  | succ k ih =>
    have hit : (s.etu.iter s.draws).it.toNat = s.etu.it.toNat + 1 := iter_it_toNat_of_lt hlt
    cases hf : (s.etu.iter s.draws).finished with
    | true =>
      have hstep := engineStep_tIter_of_finished hp hf
      rw [escapeLoop_of_finished hk hf]
      exact ⟨0, _, hit, k.succ_pos, engineSteps_succ hstep 0, rfl, fun m hm => by
        obtain rfl : m = 0 := by omega
        exact ⟨s, rfl, hp⟩⟩
    | false =>
      have hstep := engineStep_tIter_of_goesOn hp hf
      rw [escapeLoop_of_goesOn hf]
      obtain ⟨n, t, hcount, hn, hends⟩ := ih (s := { s with
        etu := s.etu.iter s.draws, nf := s.nf || s.etu.nonFinite s.draws, draws := s.draws + drawsPerIter })
        hp (by simp only [hit]; omega) (it_lt_of_goesOn hlt hf)
      simp only [hit] at hcount
      exact ⟨n + 1, t, by omega, by omega, hends.cons hp hstep rfl⟩

/-- Settles O43: the machine follows the loop of `escape_test` from the point's start on. -/
theorem testComputesEscapeTest : Obligations.TestComputesEscapeTest := by
  unfold Obligations.TestComputesEscapeTest
  intro s hs
  obtain ⟨n, t, hcount, hn, hsteps, hresult, hbusy⟩ :=
    testEndsAfter_of_tIter 50 (s := s.startTest) rfl rfl (by simp)
  rw [startTest_draws, startTest_nf, startTest_etu, escapeLoop_nf] at hcount hresult
  have hsum : (escapeTest s.draws s.cr s.ci).count.toNat = n + 1 := hcount.trans (Nat.zero_add _)
  rw [hsum]
  exact ⟨t, hsteps, acceptCommand_idle hs, n.succ_pos, hn, hresult, hbusy⟩

end Sys2Proof.Machine
end

section
/-!
Why no grid point meets a value that is not finite (41_escape_test.md R160): the coordinates are small, an ITER that
starts from small values computes values of at most 2^21, and one that does not escape leaves small values again.
-/

namespace Sys2Proof.Machine

/-! ### Bounds by a power of two -/

/-- A finite pattern with |V(p)| <= 2^j. -/
def Within (j : Nat) (p : F64) : Prop := isfinite p = true ∧ mag p ≤ 2 ^ j * oneUnits

theorem two_pow_mul_oneUnits (j : Nat) : 2 ^ j * oneUnits = 2 ^ (j + 1074) := by
  unfold oneUnits
  exact (pow_add 2 j 1074).symm

theorem mag_le_of_expOf (p : F64) : mag p ≤ 2 ^ (53 + (expOf p - 1)) := by
  have hfrac := fracOf_lt p
  have hpos : 0 < 2 ^ (expOf p - 1) := Nat.two_pow_pos _
  rw [mag, pow_add]
  split_ifs
  · exact le_trans (by omega) (Nat.le_mul_of_pos_right _ hpos)
  · exact Nat.mul_le_mul_right _ (by omega)

theorem roundMag_lt_overflow_of_isfinite {r : Int} {d : Nat} {s : Bool} (hd : 0 < d)
    (h : isfinite (round r d s) = true) : roundMag r.natAbs d < overflowUnits := by
  by_contra hge
  rw [(isfinite_round_eq_false_iff hd).mpr (not_lt.mp hge)] at h
  cases h

namespace Within
variable {i j n : Nat} {a b : F64}

theorem mono (h : Within i a) (hij : i ≤ j) : Within j a :=
  ⟨h.1, h.2.trans (Nat.mul_le_mul_right _ (Nat.pow_le_pow_right (by norm_num) hij))⟩

/-- A pattern is bounded by the binade above its own. -/
theorem of_expOf (he : expOf a ≤ 1022 + j) (hj : j < 1000) : Within j a := by
  refine ⟨(isfinite_iff_expOf a).mpr (by omega), ?_⟩
  rw [two_pow_mul_oneUnits]
  exact (mag_le_of_expOf a).trans (Nat.pow_le_pow_right (by norm_num) (by omega))

theorem neg (h : Within j a) : Within j (neg a) := ⟨by rw [isfinite_neg, h.1], by rw [mag_neg]; exact h.2⟩

theorem fadd (ha : Within j a) (hb : Within j b) (hj : j < 1000) : Within (j + 1) (fadd n a b) := by
  have hsum : (val a + val b).natAbs ≤ 2 ^ (j + 1 + 1074) := by
    calc (val a + val b).natAbs ≤ mag a + mag b := by
          rw [← natAbs_val a, ← natAbs_val b]
          exact Int.natAbs_add_le _ _
      _ ≤ 2 ^ j * oneUnits + 2 ^ j * oneUnits := Nat.add_le_add ha.2 hb.2
      _ = 2 ^ (j + 1) * oneUnits := by ring
      _ = 2 ^ (j + 1 + 1074) := two_pow_mul_oneUnits _
  rw [Within, two_pow_mul_oneUnits]
  exact fadd_bound (by omega) ha.1 hb.1 hsum

theorem fsub (ha : Within j a) (hb : Within j b) (hj : j < 1000) : Within (j + 1) (fsub n a b) := ha.fadd hb.neg hj

theorem fmul (ha : Within i a) (hb : Within j b) (hij : i + j < 1000) : Within (i + j) (fmul n a b) := by
  have hprod : mag a * mag b ≤ 2 ^ (i + j + 1074) * oneUnits := by
    calc mag a * mag b ≤ 2 ^ i * oneUnits * (2 ^ j * oneUnits) := Nat.mul_le_mul ha.2 hb.2
      _ = 2 ^ (i + j) * oneUnits * oneUnits := by ring
      _ = 2 ^ (i + j + 1074) * oneUnits := by rw [two_pow_mul_oneUnits]
  rw [Within, two_pow_mul_oneUnits]
  exact fmul_bound (by omega) ha.1 hb.1 hprod

/-- The root of a bounded rounded square is bounded: above 2^i its square would round to 2^(2i) or more. -/
theorem of_fmul_self (ha : isfinite a = true) (h : Within j (Machine.fmul n a a)) (hj : j < i + i) : Within i a := by
  refine ⟨ha, le_of_not_gt fun hlarge => ?_⟩
  obtain ⟨hfin, hmag⟩ := h
  have hround : roundMag (mag a * mag a) oneUnits < overflowUnits := by
    rw [fmul_of_finite ha ha] at hfin
    simpa only [Int.natAbs_mul, natAbs_val] using roundMag_lt_overflow_of_isfinite oneUnits_pos hfin
  have hsquare : 2 ^ (i + i) * oneUnits * oneUnits ≤ mag a * mag a := by
    calc 2 ^ (i + i) * oneUnits * oneUnits = 2 ^ i * oneUnits * (2 ^ i * oneUnits) := by ring
      _ ≤ mag a * mag a := Nat.mul_le_mul hlarge.le hlarge.le
  have hlow : 2 ^ (i + i) * oneUnits ≤ roundMag (mag a * mag a) oneUnits :=
    le_roundMag oneUnits_pos (by rw [two_pow_mul_oneUnits]; exact spaced_two_pow _) hsquare
  rw [(fmul_spec ha ha hround).2.1] at hmag
  have hlt : 2 ^ j * oneUnits < 2 ^ (i + i) * oneUnits :=
    Nat.mul_lt_mul_of_pos_right (Nat.pow_lt_pow_right (by norm_num) hj) oneUnits_pos
  omega

/-- A value between 0 and a bounded one is bounded. -/
theorem of_val_le (ha : isfinite a = true) (h0 : 0 ≤ val a) (hab : val a ≤ val b) (hb : Within j b) : Within j a := by
  refine ⟨ha, le_trans ?_ hb.2⟩
  have := natAbs_val a
  have := natAbs_val b
  omega

end Within

/-- A square is not negative. -/
theorem val_fmul_self_nonneg {n : Nat} {a : F64} (ha : isfinite a = true) (h : isfinite (fmul n a a) = true) :
    0 ≤ val (fmul n a a) := by
  rw [fmul_of_finite ha ha] at h ⊢
  rw [val_round oneUnits_pos (roundMag_lt_overflow_of_isfinite oneUnits_pos h), if_neg (not_lt.mpr (mul_self_nonneg _))]
  exact Int.natCast_nonneg _

/-- A sum of two values that are not negative is rounded to no less than either. -/
theorem val_le_val_fadd {n : Nat} {a b : F64} (ha : isfinite a = true) (hb : isfinite b = true) (ha0 : 0 ≤ val a)
    (hb0 : 0 ≤ val b) (h : isfinite (fadd n a b) = true) : val a ≤ val (fadd n a b) ∧ val b ≤ val (fadd n a b) := by
  rw [fadd_of_finite ha hb] at h ⊢
  split_ifs at h ⊢ with hz
  · simp only [Bool.and_eq_true, isZero_iff_of_finite] at hz
    omega
  · have hle : ∀ p : F64, mag p ≤ (val a + val b).natAbs → (mag p : Int) ≤ val (round (val a + val b) 1 false) :=
      fun p hp => by
        rw [val_round one_pos (roundMag_lt_overflow_of_isfinite one_pos h), if_neg (by omega)]
        exact Int.ofNat_le.mpr (le_roundMag one_pos (mag_spaced p) (by omega))
    have hma := natAbs_val a
    have hmb := natAbs_val b
    have h1 := hle a (by omega)
    have h2 := hle b (by omega)
    omega

/-! ### Small ETU states -/

/-- What a point of the grid has in the ETU registers before each of its iterations. -/
structure Etu.Small (u : Etu) : Prop where
  crq : Within 2 u.crq
  ciq : Within 2 u.ciq
  zi : Within 2 u.zi
  zrzr : Within 3 u.zrzr
  zizi : Within 3 u.zizi

/-- The bounds of the values one ITER computes from a small state. -/
structure IterValues.Bounded (v : IterValues) : Prop where
  t1 : Within 4 v.t1
  zr : Within 5 v.zr
  t2 : Within 7 v.t2
  t3 : Within 9 v.t3
  zi : Within 10 v.zi
  zrzr : Within 10 v.zrzr
  zizi : Within 20 v.zizi
  s : Within 21 v.s

namespace Etu.Small
variable {u : Etu}

theorem pointStart {cr ci : F64} (hr : Within 2 cr) (hi : Within 2 ci) : (Etu.pointStart cr ci).Small :=
  have hzero (j : Nat) (hj : j < 1000) : Within j 0 := .of_expOf (by simp [expOf]) hj
  ⟨hr, hi, hzero 2 (by norm_num), hzero 3 (by norm_num), hzero 3 (by norm_num)⟩

theorem iterValues (h : u.Small) (n : Nat) : (iterValues n u).Bounded := by
  have htwo : Within 2 two := .of_expOf (by decide +kernel) (by norm_num)
  have t1 := h.zrzr.fsub (n := n) h.zizi (by norm_num)
  have zr := t1.fadd (n := n + 1) (h.crq.mono (by norm_num)) (by norm_num)
  have t2 := htwo.fmul (n := n + 2) zr (by norm_num)
  have t3 := t2.fmul (n := n + 3) h.zi (by norm_num)
  have zi := t3.fadd (n := n + 4) (h.ciq.mono (by norm_num)) (by norm_num)
  have zrzr := zr.fmul (n := n + 5) zr (by norm_num)
  have zizi := zi.fmul (n := n + 6) zi (by norm_num)
  exact ⟨t1, zr, t2, t3, zi, zrzr, zizi, (zrzr.mono (by norm_num)).fadd zizi (by norm_num)⟩

theorem nonFinite_eq_false (h : u.Small) (n : Nat) : u.nonFinite n = false := by
  have hv := h.iterValues n
  simp [Etu.nonFinite, h.crq.1, h.ciq.1, hv.t1.1, hv.zr.1, hv.t2.1, hv.t3.1, hv.zi.1, hv.zrzr.1, hv.zizi.1, hv.s.1]

/-- An ITER that does not escape leaves a small state: neither square exceeds their sum, and zi is bounded by its own. -/
theorem iter (h : u.Small) {n : Nat} (he : (u.iter n).escape = false) : (u.iter n).Small := by
  have hv := h.iterValues n
  have hthreshold : Within 3 Config.threshold := .of_expOf (by decide +kernel) (by norm_num)
  have hs : val (Machine.iterValues n u).s ≤ val Config.threshold := by
    have hgt : fgt (Machine.iterValues n u).s Config.threshold = false := he
    rw [fgt_of_numbers (finite_not_nan hv.s.1).1 (finite_not_nan hthreshold.1).1] at hgt
    exact not_lt.mp (of_decide_eq_false hgt)
  have hr0 : 0 ≤ val (Machine.iterValues n u).zrzr := val_fmul_self_nonneg hv.zr.1 hv.zrzr.1
  have hi0 : 0 ≤ val (Machine.iterValues n u).zizi := val_fmul_self_nonneg hv.zi.1 hv.zizi.1
  obtain ⟨hrs, his⟩ := val_le_val_fadd hv.zrzr.1 hv.zizi.1 hr0 hi0 hv.s.1
  have zrzr : Within 3 (Machine.iterValues n u).zrzr := .of_val_le hv.zrzr.1 hr0 (hrs.trans hs) hthreshold
  have zizi : Within 3 (Machine.iterValues n u).zizi := .of_val_le hv.zizi.1 hi0 (his.trans hs) hthreshold
  exact ⟨h.crq, h.ciq, .of_fmul_self hv.zi.1 zizi (by norm_num), zrzr, zizi⟩

/-- No iteration of a point that starts small meets a value that is not finite. -/
theorem escapeLoop_nf (h : u.Small) (k n : Nat) (nf : Bool) : (escapeLoop k n nf u).nf = nf := by
  induction k generalizing n nf u with
  | zero => rfl
  | succ k ih =>
    rw [escapeLoop, h.nonFinite_eq_false n, Bool.or_false]
    split_ifs with he
    · rfl
    · exact ih (h.iter (Bool.eq_false_of_not_eq_true he)) _ _

end Etu.Small

/-! ### The coordinates -/

/-- A coordinate before its constant is taken off: 0 <= 2n/SIZE < 2. -/
theorem gridQuotient_within {size n : Nat} (h : n < size) (hs : size ≤ 65535) :
    ∃ q, gridQuotient size n = some q ∧ Within 1 q := by
  have hsize : 0 < size := by omega
  have hmag : roundMag ((2 * n * oneUnits : Nat) : Int).natAbs size ≤ 2 ^ 1 * oneUnits := by
    refine roundMag_le hsize (by rw [two_pow_mul_oneUnits]; exact spaced_two_pow _) ?_
    calc 2 * n * oneUnits ≤ 2 * size * oneUnits := Nat.mul_le_mul_right _ (by omega)
      _ = 2 ^ 1 * oneUnits * size := by ring
  have hlt : roundMag ((2 * n * oneUnits : Nat) : Int).natAbs size < overflowUnits :=
    hmag.trans_lt (by rw [two_pow_mul_oneUnits]; exact two_pow_lt_overflow (by norm_num))
  obtain ⟨hfin, hround, -⟩ := round_finite (s := false) hsize hlt
  exact ⟨_, gridQuotient_eq h hs, hfin, hround.trans_le hmag⟩

theorem coordR_within {size x : Nat} (h : x < size) (hs : size ≤ 65535) :
    ∃ cr, coordR size x = some cr ∧ Within 2 cr := by
  obtain ⟨q, hq, hw⟩ := gridQuotient_within h hs
  exact ⟨_, by rw [coordR, hq]; rfl, hw.fsub (.of_expOf (by decide +kernel) (by norm_num)) (by norm_num)⟩

theorem coordI_within {size y : Nat} (h : y < size) (hs : size ≤ 65535) :
    ∃ ci, coordI size y = some ci ∧ Within 2 ci := by
  obtain ⟨q, hq, hw⟩ := gridQuotient_within h hs
  exact ⟨_, by rw [coordI, hq]; rfl, hw.fsub (.of_expOf (by decide +kernel) (by norm_num)) (by norm_num)⟩

/-- Settles O48: a grid point starts small, and every iteration before its end keeps it so. -/
theorem gridPointsStayFinite : Obligations.GridPointsStayFinite := by
  unfold Obligations.GridPointsStayFinite
  intro size x y hx hy hsize
  obtain ⟨cr, hcr, hr⟩ := coordR_within hx hsize
  obtain ⟨ci, hci, hi⟩ := coordI_within hy hsize
  exact ⟨escapeTest 0 cr ci, by rw [gridPoint, hcr, hci], (Etu.Small.pointStart hr hi).escapeLoop_nf _ _ _⟩

end Sys2Proof.Machine
end

section
/-!
The commands PACK and CLEAR (42_bit_packer.md R181, R192, R193), each by the acceptance rule.
-/

namespace Sys2Proof.Machine

/-- Settles O10, by PACK_BIT in integers. -/
theorem packAccepted : Obligations.PackAccepted := by
  unfold Obligations.PackAccepted
  intro s b l hs
  rw [← packBit_eq]
  exact acceptCommand_idle (f := fun s => { s with bpk := s.bpk.packBit b l }) hs

/-- Settles O11: idle, CLEAR is BPK_CLEAR; busy, it is rejected. -/
theorem clearAcceptedOrRejected : Obligations.ClearAcceptedOrRejected := by
  unfold Obligations.ClearAcceptedOrRejected
  exact fun s => ⟨fun hs => acceptCommand_idle hs, fun hs => acceptCommand_busy hs⟩

/-- Settles O49: a row's last bit flushes the packer. -/
theorem rowEndEmptiesThePacker : Obligations.RowEndEmptiesThePacker := by
  unfold Obligations.RowEndEmptiesThePacker
  intro b p
  rw [packBit_last_empty]
  exact ⟨rfl, rfl⟩

end Sys2Proof.Machine
end

section
/-!
The bits of a run in the packer (42_bit_packer.md R186 to R188): byte_acc holds them as they came, the latest in bit 0,
and the flush moves the earliest to bit 7.
-/

namespace Sys2Proof.Machine

/-- The bits of a run in byte_acc, the latest in bit 0 (R186). -/
def accOf (bits : List Bool) : BitVec 8 := bits.foldl BitVec.shiftConcat 0

/-- The byte that the flush of a run folds into sum: bit j of the run in bit 7 - j, the rest 0 (R188). -/
def flushByte (bits : List Bool) : BitVec 8 := accOf bits <<< (8 - bits.length)

/-- The packer within a run: the bits since the last flush are in byte_acc, and bit_num counts them. -/
def Bpk.holding (sum : BitVec 8) (bits : List Bool) : Bpk := ⟨sum, accOf bits, BitVec.ofNat 3 bits.length⟩

@[simp] theorem accOf_concat (bits : List Bool) (b : Bool) : accOf (bits ++ [b]) = (accOf bits).shiftConcat b := by
  simp [accOf]

theorem shiftConcat_eq_double_add (x : BitVec 8) (b : Bool) :
    x.shiftConcat b = x * 2 + (BitVec.ofBool b).setWidth 8 := by
  apply BitVec.eq_of_toNat_eq
  cases b <;> simp [BitVec.toNat_add, BitVec.toNat_mul, Nat.shiftLeft_eq]

/-! ### The bits of the flushed byte -/

theorem accOf_getLsbD (bits : List Bool) {i : Nat} (hi : i < 8) :
    (accOf bits).getLsbD i = bits.reverse.getD i false := by
  induction bits using List.reverseRecOn generalizing i with
  | nil => simp [accOf]
  | append_singleton bits b ih =>
    rw [accOf_concat, BitVec.getLsbD_shiftConcat, List.reverse_append]
    cases i with
    | zero => simp
    | succ i => simp [hi, ih (Nat.lt_of_succ_lt hi)]

theorem flushByte_getLsbD {bits : List Bool} (h : bits.length ≤ 8) {j : Nat} (hj : j < 8) :
    (flushByte bits).getLsbD (7 - j) = bits.getD j false := by
  rw [flushByte, BitVec.getLsbD_shiftLeft]
  by_cases hlen : j < bits.length
  · rw [accOf_getLsbD bits (by omega), show 7 - j - (8 - bits.length) = bits.length - 1 - j by omega]
    have hshift : ¬ 7 - j < 8 - bits.length := by omega
    simp [hshift, hlen, show bits.length - 1 - j < bits.length by omega,
      show bits.length - 1 - (bits.length - 1 - j) = j by omega, show 7 - j < 8 by omega]
  · simp [show 7 - j < 8 - bits.length by omega, List.getElem?_eq_none (Nat.le_of_not_lt hlen)]

theorem flushByte_concat {bits : List Bool} (h : bits.length < 8) (b : Bool) :
    flushByte (bits ++ [b]) = flushByte bits + if b then 1#8 <<< (7 - bits.length) else 0 := by
  have hlen : 8 - (bits ++ [b]).length = 7 - bits.length := by simp
  have hshift : 8 - bits.length = 1 + (7 - bits.length) := by omega
  have hdouble : accOf bits <<< 1 = accOf bits * 2 := BitVec.shiftLeft_eq_mul_twoPow _ 1
  rw [flushByte, flushByte, hlen, hshift, accOf_concat, shiftConcat_eq_double_add, BitVec.shiftLeft_add_distrib,
    BitVec.shiftLeft_add, hdouble]
  cases b <;> simp

/-! ### A run of PACK_BIT steps -/

theorem holding_packBit_keep {sum : BitVec 8} {bits : List Bool} (h : bits.length < 7) (b : Bool) :
    (Bpk.holding sum bits).packBit b false = .holding sum (bits ++ [b]) := by
  have hnum : (BitVec.ofNat 3 bits.length).toNat = bits.length := Nat.mod_eq_of_lt (by omega)
  simp [Bpk.packBit, Bpk.holding, hnum, shiftConcat_eq_double_add, h.ne]

theorem holding_packBit_flush {sum : BitVec 8} {bits : List Bool} {last : Bool}
    (h : bits.length = 7 ∨ (bits.length < 7 ∧ last = true)) (b : Bool) :
    (Bpk.holding sum bits).packBit b last = ⟨sum ^^^ flushByte (bits ++ [b]), 0, 0⟩ := by
  obtain h7 | ⟨h7, rfl⟩ := h
  · simp [Bpk.packBit, Bpk.holding, flushByte, shiftConcat_eq_double_add, h7]
  · have hnum : (BitVec.ofNat 3 bits.length).toNat = bits.length := Nat.mod_eq_of_lt (by omega)
    simp [Bpk.packBit, Bpk.holding, flushByte, hnum, shiftConcat_eq_double_add, h7.ne]

theorem foldl_packBit_eq_holding {sum : BitVec 8} {bits : List Bool} (h : bits.length ≤ 7) :
    bits.foldl (fun p c => p.packBit c false) (⟨sum, 0, 0⟩ : Bpk) = .holding sum bits := by
  induction bits using List.reverseRecOn with
  | nil => rfl
  | append_singleton bits b ih =>
    have hlt : bits.length < 7 := by simpa using h
    rw [List.foldl_append, ih hlt.le]
    exact holding_packBit_keep hlt b

/-- Settles O50: the run is held in byte_acc up to its last bit, which flushes it. -/
theorem packedBitsAreMsbFirst : Obligations.PackedBitsAreMsbFirst := by
  unfold Obligations.PackedBitsAreMsbFirst
  intro sum bits b last h
  have hlen : bits.length ≤ 7 := by omega
  refine ⟨flushByte (bits ++ [b]), ?_, fun j hj => flushByte_getLsbD (by simpa using Nat.lt_succ_of_le hlen) hj⟩
  rw [foldl_packBit_eq_holding hlen, holding_packBit_flush h]

end Sys2Proof.Machine
end

section
/-!
The checksum in closed form (42_bit_packer.md R189 to R191): a row is packed one run of at most eight columns after
another, each run folds byte(y, j) into sum, and XOR forgets the order of the rows.
-/

namespace Sys2Proof.Machine

/-! ### byte(y, j) -/

/-- The escape flags of `n` columns of row `y` from column `x` on. -/
def rowFlags (size y x n : Nat) : List Bool := (List.range n).map fun i => escapeFlag size (x + i) y

@[simp] theorem rowFlags_length (size y x n : Nat) : (rowFlags size y x n).length = n := by simp [rowFlags]

theorem rowFlags_succ (size y x n : Nat) :
    rowFlags size y x (n + 1) = rowFlags size y x n ++ [escapeFlag size (x + n) y] := by
  simp [rowFlags, List.range_succ]

theorem escapeFlag_of_size_le {size x y : Nat} (h : size ≤ x) : escapeFlag size x y = false := by
  have hq : gridQuotient size x = none := gridQuotient_none fun hx => hx.1.not_ge h
  simp [escapeFlag, gridPoint, coordR, hq]

/-- The flags of columns outside the grid are 0 (R191). -/
theorem rowFlags_getD {size y x n i : Nat} (h : i < n ∨ size ≤ x + n) :
    (rowFlags size y x n).getD i false = escapeFlag size (x + i) y := by
  by_cases hi : i < n
  · simp [rowFlags, hi]
  · rw [escapeFlag_of_size_le (by omega)]
    exact List.getD_eq_default _ _ (by simpa using hi)

theorem foldl_add_flags_eq_flushByte {size y x n : Nat} (hn : n ≤ 8) :
    (List.range n).foldl (fun acc i => acc + (if escapeFlag size (x + i) y then (1#8 <<< (7 - i)) else 0)) 0 =
      flushByte (rowFlags size y x n) := by
  induction n with
  | zero => rfl
  | succ n ih =>
    rw [List.range_succ, List.foldl_append, ih (Nat.le_of_succ_le hn), rowFlags_succ,
      flushByte_concat (by simpa using hn), rowFlags_length]
    rfl

theorem rowByte_eq_flushByte (size y j : Nat) : rowByte size y j = flushByte (rowFlags size y (8 * j) 8) :=
  foldl_add_flags_eq_flushByte le_rfl

theorem rowByte_getLsbD (size y j : Nat) {i : Nat} (hi : i < 8) :
    (rowByte size y j).getLsbD (7 - i) = escapeFlag size (8 * j + i) y := by
  rw [rowByte_eq_flushByte, flushByte_getLsbD (by simp) hi, rowFlags_getD (.inl hi)]

/-- A run that ends at column 8j + 7, or before it with the row, flushes byte(y, j). -/
theorem flushByte_rowFlags {size y j n : Nat} (hn : n ≤ 8) (h : n = 8 ∨ size ≤ 8 * j + n) :
    flushByte (rowFlags size y (8 * j) n) = rowByte size y j := by
  refine BitVec.eq_of_getLsbD_eq fun i hi => ?_
  have hcol := rowByte_getLsbD size y j (i := 7 - i) (by omega)
  have hflag := flushByte_getLsbD (bits := rowFlags size y (8 * j) n) (by simpa using hn) (j := 7 - i) (by omega)
  rw [rowFlags_getD (by omega), ← hcol] at hflag
  rwa [show 7 - (7 - i) = i by omega] at hflag

/-! ### One row -/

/-- The columns of a row before its last are packed without flush request. -/
theorem packRow_add {size y x n : Nat} (p : Bpk) (h : x + n < size) :
    packRow size y p (x + n) = (rowFlags size y x n).foldl (fun p c => p.packBit c false) (packRow size y p x) := by
  induction n with
  | zero => rfl
  | succ n ih =>
    have hlast : (x + n + 1 == size) = false := beq_eq_false_iff_ne.mpr h.ne
    rw [rowFlags_succ, List.foldl_append, ← ih (by omega), ← Nat.add_assoc, packRow, hlast]
    rfl

/-- One run of a row: from the empty packer to the eighth column after it, or to the row's end. -/
theorem packRow_run {size y j n : Nat} {p : Bpk} {sum : BitVec 8} (hp : packRow size y p (8 * j) = ⟨sum, 0, 0⟩)
    (hn : n ≤ 7) (hx : 8 * j + n < size) (hend : n = 7 ∨ 8 * j + n + 1 = size) :
    packRow size y p (8 * j + n + 1) = ⟨sum ^^^ rowByte size y j, 0, 0⟩ := by
  have hlen := rowFlags_length size y (8 * j) n
  have hflush : (rowFlags size y (8 * j) n).length = 7 ∨
      ((rowFlags size y (8 * j) n).length < 7 ∧ (8 * j + n + 1 == size) = true) := by
    rw [hlen, beq_iff_eq]
    omega
  rw [packRow, packRow_add p hx, hp, foldl_packBit_eq_holding (by rwa [hlen]), holding_packBit_flush hflush,
    ← rowFlags_succ, flushByte_rowFlags (by omega) (by omega)]

/-- After a run is done the first bytes of the row are folded into sum, and the packer is empty (R189). -/
theorem packRow_bytes {size y j : Nat} (sum : BitVec 8) (hj : 8 * j < size + 8) :
    packRow size y ⟨sum, 0, 0⟩ (min (8 * j) size) =
      ⟨sum ^^^ (List.range j).foldl (fun acc j => acc ^^^ rowByte size y j) 0, 0, 0⟩ := by
  induction j with
  | zero => simp [packRow]
  | succ j ih =>
    have hx : 8 * j < size := by omega
    have hp := ih (by omega)
    rw [min_eq_left hx.le] at hp
    have hnext : min (8 * (j + 1)) size = 8 * j + min 7 (size - 8 * j - 1) + 1 := by omega
    rw [hnext, packRow_run hp (by omega) (by omega) (by omega), List.range_succ, List.foldl_append, BitVec.xor_assoc]
    rfl

/-- A row folds its bytes into sum, the last one padded with 0 (R189, R191). -/
theorem packRow_eq_rowFold (size y : Nat) (sum : BitVec 8) :
    packRow size y ⟨sum, 0, 0⟩ size = ⟨sum ^^^ rowFold size y, 0, 0⟩ := by
  have h := packRow_bytes (size := size) (y := y) (j := (size + 7) / 8) sum (by omega)
  rwa [min_eq_right (by omega)] at h

/-! ### All rows -/

theorem packRows_eq_foldRows (size n : Nat) : packRows size n = ⟨foldRows size (List.range n), 0, 0⟩ := by
  induction n with
  | zero => rfl
  | succ n ih => rw [packRows, ih, packRow_eq_rowFold, foldRows, foldRows, List.range_succ, List.foldl_append]; rfl

theorem checksum_eq_foldRows (size : Nat) : checksum size = foldRows size (List.range size) := by
  rw [checksum, packRows_eq_foldRows]

/-- XOR is commutative and associative, so the order of the rows is lost (R190). -/
theorem foldRows_perm {size : Nat} {rows rows' : List Nat} (h : rows.Perm rows') :
    foldRows size rows = foldRows size rows' :=
  h.foldl_eq' (fun _ _ _ _ _ => by rw [BitVec.xor_assoc, BitVec.xor_assoc, BitVec.xor_comm (rowFold _ _)]) 0

/-- Settles O51, row by row and, in a row, byte by byte. -/
theorem checksumClosedForm : Obligations.ChecksumClosedForm := by
  unfold Obligations.ChecksumClosedForm
  exact ⟨checksum_eq_foldRows, fun size y j _ hi => rowByte_getLsbD size y j hi⟩

/-- Settles O52: the fold of a permutation of the rows is that of the rows in order, which is the checksum. -/
theorem rowOrderDoesNotMatter : Obligations.RowOrderDoesNotMatter := by
  unfold Obligations.RowOrderDoesNotMatter
  exact fun size _ h => (foldRows_perm h).trans (checksum_eq_foldRows size).symm

end Sys2Proof.Machine
end

section
/-!
NOP, RUN and the RUN's engine steps (43_sequencer.md R216, R217, R221 to R223): acceptance, and what each step answers.
-/

namespace Sys2Proof.Machine

/-- Settles O7: NOP's arm answers its own state. -/
theorem nopDoesNothing : Obligations.NopDoesNothing := by
  unfold Obligations.NopDoesNothing
  intro s
  rfl

/-- Settles O8, by the acceptance rule in an idle state. -/
theorem runAccepted : Obligations.RunAccepted := by
  unfold Obligations.RunAccepted
  intro s hs
  exact acceptCommand_idle hs

/-! ### R_START -/

theorem lt_of_coordR_eq_some {size x : Nat} {cr : F64} (h : coordR size x = some cr) : x < size := by
  by_contra hge
  rw [coordR, gridQuotient_none fun hx => hge hx.1] at h
  cases h

theorem engineStep_rStart {s : State} {cr ci : F64} (hp : s.phase = .rStart)
    (hcr : coordR s.size.toNat s.x.toNat = some cr) (hci : coordI s.size.toNat s.y.toNat = some ci) :
    s.engineStep = .next { s with etu := Etu.pointStart cr ci, phase := .rIter } := by
  have hsize : s.size ≠ 0 := fun h0 => by simpa [h0] using lt_of_coordR_eq_some hcr
  rw [State.engineStep, hp]
  simp only [State.rStartStep, if_neg hsize, hcr, hci]

/-- Settles O36: on the grid the quotient of a coordinate is 2n/SIZE, rounded once. -/
theorem startStepTakesTheCoordinates : Obligations.StartStepTakesTheCoordinates := by
  unfold Obligations.StartStepTakesTheCoordinates
  intro s hp hx hy
  have hsize : s.size.toNat ≤ 65535 := Nat.le_of_lt_succ s.size.isLt
  refine engineStep_rStart hp ?_ ?_
  · rw [coordR, gridQuotient_eq hx hsize]
    rfl
  · rw [coordI, gridQuotient_eq hy hsize]
    rfl

/-! ### R_ITER -/

theorem engineStep_rIter {s : State} (hp : s.phase = .rIter) : s.engineStep = .next s.rIterStep := by
  rw [State.engineStep, hp]

/-- The engine step in R_ITER, by whether the point is finished (R222). -/
theorem engineStep_rIter_of_finished {s : State} (hp : s.phase = .rIter) (hf : (s.etu.iter s.draws).finished = true) :
    s.engineStep = .next
      { s with
        etu := s.etu.iter s.draws, nf := s.nf || s.etu.nonFinite s.draws, draws := s.draws + drawsPerIter
        esc := (s.etu.iter s.draws).escape, count := (s.etu.iter s.draws).it, phase := .rEnd } := by
  rw [engineStep_rIter hp, rIterStep_eq, if_pos hf, iterate_of_finished hf]

theorem engineStep_rIter_of_goesOn {s : State} (hp : s.phase = .rIter) (hf : (s.etu.iter s.draws).finished = false) :
    s.engineStep = .next
      { s with
        etu := s.etu.iter s.draws, nf := s.nf || s.etu.nonFinite s.draws, draws := s.draws + drawsPerIter } := by
  rw [engineStep_rIter hp, rIterStep_eq, if_neg (by simp [hf]), iterate_of_goesOn hf]

/-- Settles O35: the point escaped, took its 50th iteration, or goes on. -/
theorem runIterationStep : Obligations.RunIterationStep := by
  unfold Obligations.RunIterationStep
  intro s hp
  split_ifs with he hit
  · rw [engineStep_rIter_of_finished hp (finished_of_escape he), he]
    rfl
  all_goals
    rw [Bool.not_eq_true] at he
    have hf := finished_eq_of_not_escape he
    rw [iter_it] at hf
  · rw [engineStep_rIter_of_finished hp (hf.trans (decide_eq_true hit)), he, iter_it,
      show s.etu.it + 1 = 50 from BitVec.eq_of_toNat_eq hit]
    rfl
  · exact engineStep_rIter_of_goesOn hp (hf.trans (decide_eq_false hit))

/-! ### R_END -/

theorem engineStep_rEnd {s : State} (hp : s.phase = .rEnd) : s.engineStep = .next s.rEndStep := by
  rw [State.engineStep, hp]

/-- Settles O37: the last column is x = SIZE - 1, since SIZE is not 0. -/
theorem endStepPacksAndAdvances : Obligations.EndStepPacksAndAdvances := by
  unfold Obligations.EndStepPacksAndAdvances
  intro s hp hsize hy
  have hlast : s.x.toNat = s.size.toNat - 1 ↔ s.x.toNat + 1 = s.size.toNat := by omega
  rw [engineStep_rEnd hp, rEndStep_eq hsize hy]
  simp only [hlast]

end Sys2Proof.Machine
end

section
/-!
A whole RUN left to the engine (43_sequencer.md R218, R224, R225): at every step it is known how many engine steps are
left and what ERES will hold, and `RunProgress` knows the packer.
-/

namespace Sys2Proof.Machine

open Finset (Ico range sum_eq_sum_Ico_succ_bot)

/-! ### The count of a point -/

/-- A point in work takes at least one iteration more, and at most 50 in all (41_escape_test.md R155). -/
theorem escapeLoop_count (k n : Nat) (nf : Bool) {u : Etu} (hk : u.it.toNat + (k + 1) = 50) :
    u.it.toNat < (escapeLoop (k + 1) n nf u).count.toNat ∧ (escapeLoop (k + 1) n nf u).count.toNat ≤ 50 := by
  induction k generalizing n nf u with
  | zero =>
    have hit : (u.iter n).it.toNat = u.it.toNat + 1 := iter_it_toNat_of_lt (by omega)
    have hcount : (escapeLoop (0 + 1) n nf u).count = (u.iter n).it := by
      rw [escapeLoop]
      split <;> rfl
    rw [hcount]
    omega
  | succ k ih =>
    have hit : (u.iter n).it.toNat = u.it.toNat + 1 := iter_it_toNat_of_lt (by omega)
    rw [escapeLoop]
    split
    · simp only [hit]
      omega
    · obtain ⟨hlt, hle⟩ := ih (n + drawsPerIter) (nf || u.nonFinite n) (u := u.iter n) (by omega)
      omega

theorem gridPoint_eq_some {size x y : Nat} {r : PointResult} (h : gridPoint size x y = some r) :
    ∃ cr ci, coordR size x = some cr ∧ coordI size y = some ci ∧ escapeTest 0 cr ci = r := by
  unfold gridPoint at h
  split at h
  · next cr ci hcr hci => exact ⟨cr, ci, hcr, hci, Option.some.inj h⟩
  · cases h

theorem pointSteps_le (size x y : Nat) : pointSteps size x y ≤ 52 := by
  unfold pointSteps
  split
  · next r h =>
    obtain ⟨cr, ci, -, -, rfl⟩ := gridPoint_eq_some h
    exact Nat.add_le_add_right (escapeLoop_count 49 0 false (u := Etu.pointStart cr ci) (by simp)).2 2
  · omega

/-! ### Sums over the grid -/

/-- The engine steps from the start of the point (x, y) to the end of the RUN (R225). -/
def stepsFrom (size x y : Nat) : Nat :=
  ∑ i ∈ Ico x size, pointSteps size i y + ∑ j ∈ Ico (y + 1) size, ∑ i ∈ range size, pointSteps size i j

theorem stepsFrom_column {size x y : Nat} {r : PointResult} (hx : x < size) (point : gridPoint size x y = some r) :
    stepsFrom size x y = r.count.toNat + 2 + stepsFrom size (x + 1) y := by
  rw [stepsFrom, sum_eq_sum_Ico_succ_bot hx, stepsFrom, pointSteps, point, Nat.add_assoc]

theorem stepsFrom_row_end {size y : Nat} (hy : y + 1 < size) : stepsFrom size size y = stepsFrom size 0 (y + 1) := by
  rw [stepsFrom, Finset.Ico_self, Finset.sum_empty, sum_eq_sum_Ico_succ_bot hy, stepsFrom, Finset.range_eq_Ico,
    Nat.zero_add]

theorem stepsFrom_grid_end {size y : Nat} (hy : y + 1 = size) : stepsFrom size size y = 0 := by
  simp [stepsFrom, hy]

theorem runSteps_eq_sum (size : Nat) : runSteps size = ∑ y ∈ range size, ∑ x ∈ range size, pointSteps size x y := rfl

theorem runSteps_eq_stepsFrom {size : Nat} (h : 0 < size) : runSteps size = stepsFrom size 0 0 := by
  rw [runSteps_eq_sum, Finset.range_eq_Ico, sum_eq_sum_Ico_succ_bot h, stepsFrom, Finset.range_eq_Ico]

theorem runSteps_le (size : Nat) : runSteps size ≤ 52 * (size * size) := by
  have hrow (y : Nat) : ∑ x ∈ range size, pointSteps size x y ≤ size * 52 := by
    simpa using Finset.sum_le_card_nsmul (range size) _ 52 fun x _ => pointSteps_le size x y
  calc runSteps size ≤ size * (size * 52) := by
        simpa [runSteps_eq_sum] using Finset.sum_le_card_nsmul (range size) _ _ fun y _ => hrow y
    _ = 52 * (size * size) := by ring

/-! ### What the engine leaves to the host -/

/-- The part of the state that no engine step changes. -/
def State.hostSide (s : State) : Bool × Cause × F64 × F64 × BitVec 16 × List Event × List Word :=
  (s.err, s.ecause, s.cr, s.ci, s.size, s.events, s.responses)

theorem engineStep_hostSide {s t : State} (h : s.engineStep = .next t) : t.hostSide = s.hostSide := by
  obtain ⟨-, rfl⟩ | ⟨-, rfl⟩ | ⟨-, -, cr, ci, -, -, rfl⟩ | ⟨-, rfl⟩ | ⟨-, rfl⟩ := engineStep_cases h
  · rfl
  · rw [tIterStep_eq]
    split <;> simp [State.hostSide]
  · rfl
  · rw [rIterStep_eq]
    split <;> simp [State.hostSide]
  · simp only [State.rEndStep]
    split <;> simp [State.hostSide]

/-! ### The RUN in work -/

/-- `RunLeft s n`: the RUN in work ends after `n` engine steps. In R_ITER the rest of the loop gives the result of the
point, in R_END it stands in ERES, and in the end ERES has that of the last point. -/
inductive RunLeft (s : State) : Nat → Prop
  | start (phase : s.phase = .rStart) : RunLeft s (stepsFrom s.size.toNat s.x.toNat s.y.toNat)
  | iter {k : Nat} {nf : Bool} (phase : s.phase = .rIter) (counter : s.etu.it.toNat + (k + 1) = 50)
      (point : gridPoint s.size.toNat s.x.toNat s.y.toNat = some (escapeLoop (k + 1) s.draws nf s.etu)) :
      RunLeft s ((escapeLoop (k + 1) s.draws nf s.etu).count.toNat - s.etu.it.toNat + 1 +
        stepsFrom s.size.toNat (s.x.toNat + 1) s.y.toNat)
  | pack {nf : Bool} (phase : s.phase = .rEnd)
      (point : gridPoint s.size.toNat s.x.toNat s.y.toNat = some ⟨s.esc, s.count, nf⟩) :
      RunLeft s (1 + stepsFrom s.size.toNat (s.x.toNat + 1) s.y.toNat)
  | ended {nf : Bool} (phase : s.phase = .idle) (done : s.done = true)
      (point : gridPoint s.size.toNat (s.size.toNat - 1) (s.size.toNat - 1) = some ⟨s.esc, s.count, nf⟩) : RunLeft s 0

theorem RunProgress.atPoint {s : State} (h : RunProgress s) (hp : s.phase ≠ .idle) : s.AtPoint := by
  cases h with
  | start _ point | iter _ point | pack _ point => exact point
  | done phase => exact absurd phase hp

/-- An engine step of a RUN with `n` steps left, after which one fewer is left. -/
def OneStepOf (s : State) (n : Nat) : Prop := ∃ t m, n = m + 1 ∧ s.engineStep = .next t ∧ RunLeft t m

namespace RunLeft
variable {s : State} {n : Nat}

theorem startRun (h : s.size ≠ 0) : RunLeft s.startRun (runSteps s.size.toNat) := by
  rw [runSteps_eq_stepsFrom (Nat.pos_of_ne_zero (size_toNat_ne_zero h))]
  exact .start rfl

theorem idle_result (h : RunLeft s n) (hp : s.phase = .idle) :
    n = 0 ∧ s.done = true ∧
      ∃ nf, gridPoint s.size.toNat (s.size.toNat - 1) (s.size.toNat - 1) = some ⟨s.esc, s.count, nf⟩ := by
  cases h with
  | ended _ done point => exact ⟨rfl, done, _, point⟩
  | start phase | iter phase | pack phase => simp [phase] at hp

/-- The R_START step: the loop of the point begins; its result does not depend on the draws (40_fp_datapath.md R131). -/
theorem rStart (hp : s.phase = .rStart) (hat : s.AtPoint) :
    OneStepOf s (stepsFrom s.size.toNat s.x.toNat s.y.toNat) := by
  obtain ⟨r, point, -⟩ := gridPointsStayFinite _ _ _ hat.col hat.row (Nat.le_of_lt_succ s.size.isLt)
  obtain ⟨cr, ci, hcr, hci, hr⟩ := gridPoint_eq_some point
  have hloop : r = escapeLoop (49 + 1) s.draws false (Etu.pointStart cr ci) :=
    hr.symm.trans (escapeTestIgnoresNaNDraws 0 s.draws cr ci)
  rw [stepsFrom_column hat.col point, hloop]
  rw [hloop] at point
  exact ⟨_, _, Nat.add_right_comm (_ + 1) 1 _, engineStep_rStart hp hcr hci, .iter (k := 49) rfl rfl point⟩

/-- The R_ITER step: the point's result comes to ERES, or the rest of its loop is one iteration shorter. -/
theorem rIter {k : Nat} {nf : Bool} (hp : s.phase = .rIter) (counter : s.etu.it.toNat + (k + 1) = 50)
    (point : gridPoint s.size.toNat s.x.toNat s.y.toNat = some (escapeLoop (k + 1) s.draws nf s.etu)) :
    OneStepOf s ((escapeLoop (k + 1) s.draws nf s.etu).count.toNat - s.etu.it.toNat + 1 +
      stepsFrom s.size.toNat (s.x.toNat + 1) s.y.toNat) := by
  have hit : (s.etu.iter s.draws).it.toNat = s.etu.it.toNat + 1 := iter_it_toNat_of_lt (by omega)
  cases hf : (s.etu.iter s.draws).finished with
  | true =>
    rw [escapeLoop_of_finished counter hf] at point ⊢
    exact ⟨_, _, by simp only [hit]; omega, engineStep_rIter_of_finished hp hf, .pack rfl point⟩
  | false =>
    have hlt := it_lt_of_goesOn (by omega) hf
    obtain ⟨k, rfl⟩ : ∃ j, k = j + 1 := Nat.exists_eq_succ_of_ne_zero (by omega)
    rw [escapeLoop_of_goesOn hf] at point ⊢
    have hcounter : (s.etu.iter s.draws).it.toNat + (k + 1) = 50 := by omega
    obtain ⟨hcount, -⟩ := escapeLoop_count k (s.draws + drawsPerIter) (nf || s.etu.nonFinite s.draws) hcounter
    exact ⟨_, _, by simp only; omega, engineStep_rIter_of_goesOn hp hf, .iter hp hcounter point⟩

/-- The R_END step: the next point is the next column, the next row's first, or none (43_sequencer.md R223). -/
theorem rEnd {nf : Bool} (hp : s.phase = .rEnd) (hat : s.AtPoint)
    (point : gridPoint s.size.toNat s.x.toNat s.y.toNat = some ⟨s.esc, s.count, nf⟩) :
    OneStepOf s (1 + stepsFrom s.size.toNat (s.x.toNat + 1) s.y.toNat) := by
  obtain ⟨hx, hy, -⟩ := hat
  have hsize : s.size ≠ 0 := fun h0 => by simp [h0] at hx
  have hlt := s.size.isLt
  refine ⟨s.rEndStep, _, Nat.add_comm 1 _, engineStep_rEnd hp, ?_⟩
  rw [rEndStep_eq hsize hy]
  split_ifs with hcol hrow
  · rw [hcol, stepsFrom_grid_end hrow]
    rw [show s.x.toNat = s.size.toNat - 1 by omega, show s.y.toNat = s.size.toNat - 1 by omega] at point
    exact .ended rfl rfl point
  · have hy1 : (s.y + 1).toNat = s.y.toNat + 1 := by simp [BitVec.toNat_add]; omega
    rw [hcol, stepsFrom_row_end (by omega), ← hy1]
    exact .start rfl
  · have hx1 : (s.x + 1).toNat = s.x.toNat + 1 := by simp [BitVec.toNat_add]; omega
    rw [← hx1]
    exact .start rfl

theorem step (h : RunLeft s n) (progress : RunProgress s) (hp : s.phase ≠ .idle) : OneStepOf s n := by
  have hat := progress.atPoint hp
  cases h with
  | start phase => exact rStart phase hat
  | iter phase counter point => exact rIter phase counter point
  | pack phase point => exact rEnd phase hat point
  | ended phase => exact absurd phase hp

end RunLeft

/-- `n` engine steps from `s` end the RUN in `t`, and after fewer the engine is busy. -/
structure RunEndsAfter (s : State) (n : Nat) (t : State) : Prop where
  steps : s.engineSteps n = .next t
  phase : t.phase = .idle
  left : RunLeft t 0
  progress : RunProgress t
  frame : t.hostSide = s.hostSide
  busy : ∀ m, m < n → ∃ u, s.engineSteps m = .next u ∧ u.phase ≠ .idle

theorem RunEndsAfter.cons {s u t : State} {n : Nat} (hp : s.phase ≠ .idle) (hu : s.engineStep = .next u)
    (h : RunEndsAfter u n t) : RunEndsAfter s (n + 1) t where
  steps := (engineSteps_succ hu n).trans h.steps
  phase := h.phase
  left := h.left
  progress := h.progress
  frame := h.frame.trans (engineStep_hostSide hu)
  busy := fun m hm =>
    match m with
    | 0 => ⟨s, rfl, hp⟩
    | m + 1 => by
      rw [engineSteps_succ hu]
      exact h.busy m (by omega)

theorem RunLeft.runEndsAfter {s : State} {n : Nat} (h : RunLeft s n) (progress : RunProgress s) :
    ∃ t, RunEndsAfter s n t := by
  by_cases hp : s.phase = .idle
  · obtain ⟨rfl, -⟩ := h.idle_result hp
    exact ⟨s, rfl, hp, h, progress, rfl, fun m hm => absurd hm m.not_lt_zero⟩
  · obtain ⟨u, m, rfl, hu, left⟩ := h.step progress hp
    obtain ⟨t, ht⟩ := left.runEndsAfter (progress.engineStep hu)
    exact ⟨t, ht.cons hp hu⟩
termination_by n

/-- Settles O45: the accepted RUN has `runSteps SIZE` steps left, and each of its steps leaves one fewer. -/
theorem runComputesChecksum : Obligations.RunComputesChecksum := by
  unfold Obligations.RunComputesChecksum
  intro s hs hsize
  obtain ⟨t, hsteps, hidle, left, progress, frame, hbusy⟩ := (RunLeft.startRun hsize).runEndsAfter (.startRun hsize)
  obtain ⟨-, hdone, nf, hlast⟩ := left.idle_result hidle
  obtain ⟨hbpk, hx, hy⟩ := progress.result hidle
  simp only [State.hostSide, Prod.mk.injEq, startRun_err, startRun_ecause, startRun_cr, startRun_ci, startRun_size,
    startRun_events, startRun_responses] at frame
  obtain ⟨herr, hecause, hcr, hci, hsz, hevents, hresponses⟩ := frame
  rw [hsz] at hbpk hy hlast
  exact ⟨t, _, acceptCommand_idle hs, runSteps_le _, hsteps, hidle, hdone, hbpk, hx, hy, hlast, rfl, rfl, herr, hecause,
    hcr, hci, hsz, hevents, hresponses, hbusy⟩

end Sys2Proof.Machine
end

section
/-!
The coordinates of every build (43_sequencer.md R213). The exact quotient 2n/SIZE never lies within 2^-17 of 1, 1.5
or 2 without being equal to it, and both sides of that gap are binary64 values, which the rounding does not cross.
-/

namespace Sys2Proof.Machine

/-- 2^-17 in units of 2^-1074. -/
@[irreducible] def gridUnit : Nat := 2 ^ 1057

theorem gridUnit_pos : 0 < gridUnit := by
  unfold gridUnit
  positivity

theorem oneUnits_eq_gridUnit : oneUnits = 2 ^ 17 * gridUnit := by
  unfold gridUnit
  exact oneUnits_eq 17 1057 (by norm_num)

theorem spaced_mul_gridUnit {c : Nat} (h : c ≤ 2 ^ 53) : Spaced (c * gridUnit) := by
  unfold gridUnit
  exact spaced_mul_pow h

/-! ### The sign and the value of a rounding -/

section
variable {r : Int} (h : isfinite (round r 1 false) = true)
include h

theorem val_round_one : val (round r 1 false) = if r < 0 then -(roundMag r.natAbs 1 : Int) else roundMag r.natAbs 1 :=
  val_round one_pos (roundMag_lt_overflow_of_isfinite one_pos h)

theorem val_round_le {u : Nat} (hu : Spaced u) (hr : r ≤ u) : val (round r 1 false) ≤ u := by
  rw [val_round_one h]
  split_ifs with hneg
  · omega
  · exact Int.ofNat_le.mpr (roundMag_le one_pos hu (by omega))

theorem le_val_round {u : Nat} (hu : Spaced u) (hr : -(u : Int) ≤ r) : -(u : Int) ≤ val (round r 1 false) := by
  rw [val_round_one h]
  split_ifs with hneg
  · exact Int.neg_le_neg (Int.ofNat_le.mpr (roundMag_le one_pos hu (by omega)))
  · omega

/-- A rounding of an integer is zero only if the integer is. -/
theorem val_round_eq_zero_iff : val (round r 1 false) = 0 ↔ r = 0 := by
  constructor
  · intro hval
    by_contra h0
    have hle : 1 ≤ roundMag r.natAbs 1 := le_roundMag one_pos (spaced_of_lt (by norm_num)) (by omega)
    rw [val_round_one h] at hval
    split_ifs at hval <;> omega
  · rintro rfl
    simp

end

/-- A sum that is exactly 0 is +0, and any other does not round to a zero (R123). -/
theorem round_one_ne_neg_zero (r : Int) (h : isfinite (round r 1 false) = true) :
    round r 1 false ≠ 0x8000000000000000#64 := by
  intro heq
  have hsign : signOf (round r 1 false) = true := by rw [heq]; decide
  have hval : val (round r 1 false) = 0 := by rw [heq]; decide +kernel
  rw [(val_round_eq_zero_iff h).mp hval, round_zero, signOf_zeroOf] at hsign
  cases hsign

/-! ### The quotient -/

/-- `q` is 2n/SIZE rounded once: every multiple of 2^-17 bounds it as it bounds the exact quotient. -/
structure IsQuotient (size n : Nat) (q : F64) : Prop where
  within : Within 1 q
  le : ∀ c : Nat, c ≤ 2 ^ 53 → 2 ^ 18 * n ≤ c * size → val q ≤ (c * gridUnit : Nat)
  ge : ∀ c : Nat, c ≤ 2 ^ 53 → c * size ≤ 2 ^ 18 * n → (c * gridUnit : Nat) ≤ val q

theorem gridQuotient_isQuotient {size n : Nat} (h : n < size) (hs : size ≤ 65535) :
    ∃ q, gridQuotient size n = some q ∧ IsQuotient size n q := by
  have hpos : 0 < size := by omega
  have heq := gridQuotient_eq h hs
  obtain ⟨q, hq, hwithin⟩ := gridQuotient_within h hs
  obtain rfl := Option.some.inj (hq.symm.trans heq)
  have hval := val_round hpos (roundMag_lt_overflow_of_isfinite hpos hwithin.1) (s := false)
  rw [if_neg (by omega), Int.natAbs_natCast] at hval
  have hexact : 2 * n * oneUnits = 2 ^ 18 * n * gridUnit := by rw [oneUnits_eq_gridUnit]; ring
  refine ⟨_, hq, hwithin, fun c hc hle => ?_, fun c hc hge => ?_⟩ <;> rw [hval]
  · refine Int.ofNat_le.mpr (roundMag_le hpos (spaced_mul_gridUnit hc) ?_)
    rw [hexact, Nat.mul_right_comm c]
    exact Nat.mul_le_mul_right _ hle
  · refine Int.ofNat_le.mpr (le_roundMag hpos (spaced_mul_gridUnit hc) ?_)
    rw [hexact, Nat.mul_right_comm c]
    exact Nat.mul_le_mul_right _ hge

namespace IsQuotient
variable {size n b : Nat} {q : F64} (hq : IsQuotient size n q) (hs : size ≤ 65535)
include hq hs

/-- 2n/SIZE is at most 2 - 2^-17. -/
theorem val_le (hn : n < size) : val q ≤ ((2 ^ 18 - 1) * gridUnit : Nat) := hq.le _ (by norm_num) (by omega)

/-- Where 2n/SIZE is not b/2, it differs from it by at least 2^-17. -/
theorem val_eq_iff (hb : 0 < b ∧ b ≤ 3) : val q = (b * 2 ^ 16 * gridUnit : Nat) ↔ 4 * n = b * size := by
  have hg := gridUnit_pos
  have hpos : 0 < b * 2 ^ 16 * gridUnit := Nat.mul_pos (by omega) hg
  have hsize : b * 2 ^ 16 * size = 2 ^ 16 * (b * size) := by ring
  constructor
  · intro hval
    by_contra hne
    rcases Nat.lt_or_gt_of_ne hne with hlt | hgt
    · have h := hq.le (b * 2 ^ 16 - 1) (by omega) (by rw [Nat.sub_one_mul]; omega)
      rw [Nat.sub_one_mul] at h
      omega
    · have h := hq.ge (b * 2 ^ 16 + 1) (by omega) (by rw [Nat.succ_mul]; omega)
      rw [Nat.succ_mul] at h
      omega
  · intro heq
    exact le_antisymm (hq.le _ (by omega) (by omega)) (hq.ge _ (by omega) (by omega))

end IsQuotient

/-! ### The coordinates -/

/-- A coordinate that is the quotient less the constant b/2: its range, and where it is zero (R213). -/
structure CoordinateBounds (size n b : Nat) (v : F64) : Prop where
  finite : isfinite v = true
  notNegZero : v ≠ 0x8000000000000000#64
  ge : -(b * 2 ^ 16 * gridUnit : Nat) ≤ val v
  lt : val v < ((4 - b) * 2 ^ 16 * gridUnit : Nat)
  zero : val v = 0 ↔ 4 * n = b * size

theorem IsQuotient.fsub {size n b : Nat} {q c : F64} (hq : IsQuotient size n q) (hn : n < size) (hs : size ≤ 65535)
    (hb : 0 < b ∧ b ≤ 3) (hc : Within 1 c) (hval : val c = (b * 2 ^ 16 * gridUnit : Nat)) :
    CoordinateBounds size n b (Machine.fsub 0 q c) := by
  have hg := gridUnit_pos
  have hfin := (hq.within.fsub (n := 0) hc (by norm_num)).1
  have hne : val c ≠ 0 := by
    have : 0 < b * 2 ^ 16 * gridUnit := Nat.mul_pos (by omega) hg
    omega
  have hround : Machine.fsub 0 q c = round (val q - val c) 1 false := by
    rw [fsub_of_finite hq.within.1 hc.1, if_neg fun hz => hne (isZero_iff_of_finite.mp hz.2.1)]
  have hle := hq.val_le hs hn
  have hge := hq.ge 0 (by norm_num) (by omega)
  have hupper : (2 ^ 18 - 1) * gridUnit = ((4 - b) * 2 ^ 16 - 1) * gridUnit + b * 2 ^ 16 * gridUnit := by
    rw [← Nat.add_mul, show (2 ^ 18 - 1 : Nat) = (4 - b) * 2 ^ 16 - 1 + b * 2 ^ 16 by omega]
  rw [hround, hval] at hfin ⊢
  refine ⟨hfin, round_one_ne_neg_zero _ hfin, ?_, ?_, ?_⟩
  · exact le_val_round hfin (spaced_mul_gridUnit (by omega)) (by omega)
  · calc val (round _ 1 false) ≤ (((4 - b) * 2 ^ 16 - 1) * gridUnit : Nat) :=
          val_round_le hfin (spaced_mul_gridUnit (by omega)) (by omega)
      _ < _ := Int.ofNat_lt.mpr (Nat.mul_lt_mul_of_pos_right (by omega) hg)
  · rw [val_round_eq_zero_iff hfin, sub_eq_zero, hq.val_eq_iff hs hb]

/-- Settles O58: coord_r takes 3/2 off the quotient, coord_i 2/2. -/
theorem coordinateRanges : Obligations.CoordinateRanges := by
  unfold Obligations.CoordinateRanges
  intro size n hn hs
  obtain ⟨q, hquot, hq⟩ := gridQuotient_isQuotient hn hs
  have hr : CoordinateBounds size n 3 (fsub 0 q oneAndHalf) :=
    hq.fsub hn hs (by norm_num) (.of_expOf (by decide +kernel) (by norm_num)) (by decide +kernel)
  have hi : CoordinateBounds size n 2 (fsub 0 q one) :=
    hq.fsub hn hs (by norm_num) (.of_expOf (by decide +kernel) (by norm_num)) (by decide +kernel)
  have hrlo : val 0xBFF8000000000000#64 = -(3 * 2 ^ 16 * gridUnit : Nat) := by decide +kernel
  have hrhi : val 0x3FE0000000000000#64 = ((4 - 3) * 2 ^ 16 * gridUnit : Nat) := by decide +kernel
  have hilo : val 0xBFF0000000000000#64 = -(2 * 2 ^ 16 * gridUnit : Nat) := by decide +kernel
  have hihi : val 0x3FF0000000000000#64 = ((4 - 2) * 2 ^ 16 * gridUnit : Nat) := by decide +kernel
  refine ⟨fsub 0 q oneAndHalf, fsub 0 q one, by rw [coordR, hquot]; rfl, by rw [coordI, hquot]; rfl, hr.finite,
    hi.finite, hr.notNegZero, hi.notNegZero, hrlo.trans_le hr.ge, hr.lt.trans_eq hrhi.symm, hilo.trans_le hi.ge,
    hi.lt.trans_eq hihi.symm, hr.zero, ?_⟩
  rw [hi.zero]
  omega

end Sys2Proof.Machine
end

section
/-!
What a write of each word does (44_host_access.md R242 to R246): the acceptance of a command word, write 1 to clear, one
half of an operand, and the words that ignore it.
-/

namespace Sys2Proof.Machine

/-! ### Writes to CTRL (R243) -/

/-- The acceptance rule, by the phase. -/
theorem acceptCommand_eq (effect : State → State) (s : State) :
    acceptCommand effect s = if s.phase ≠ .idle then .next (s.reject .whileBusy) else .next (effect s) := by
  split_ifs with hp
  · exact acceptCommand_busy hp
  · exact acceptCommand_idle (not_not.mp hp)

theorem exec_busy {i : Instr} {s : State} (hi : i ≠ .nop) (hp : s.phase ≠ .idle) :
    exec i s = .next (s.reject .whileBusy) := by
  obtain ⟨t, h⟩ := exec_next i s
  obtain ⟨rfl, -⟩ | ⟨-, -, rfl⟩ | ⟨hidle, -⟩ := exec_cases h
  · exact absurd rfl hi
  · exact h
  · exact absurd hidle hp

/-- Settles O12, by the acceptance rule in a busy state. -/
theorem busyRejectsCommands : Obligations.BusyRejectsCommands := by
  unfold Obligations.BusyRejectsCommands
  exact fun _ _ => exec_busy

theorem hostWrite_ctrl (v : Word) (s : State) : hostWrite 0 v s = writeCtrl v s := rfl

/-- Settles O6: an illegal word is rejected, NOP passes, and every other command goes by the acceptance rule. -/
theorem ctrlWriteAcceptance : Obligations.CtrlWriteAcceptance := by
  unfold Obligations.CtrlWriteAcceptance
  intro v s
  rw [hostWrite_ctrl, writeCtrl]
  cases decode v with
  | illegal why => rfl
  | command i =>
    cases i with
    | nop => exact nopDoesNothing s
    | run => exact acceptCommand_eq State.startRun s
    | test => exact acceptCommand_eq State.startTest s
    | pack b l => exact acceptCommand_eq (fun s => { s with bpk := s.bpk.packBit b l }) s
    | clear => exact acceptCommand_eq State.bpkClear s

/-! ### Writes to STATUS (R244) -/

/-- A flag that a written 1 clears. -/
theorem and_not_eq_ite (flag bit : Bool) : (flag && !bit) = if bit = true then false else flag := by
  cases bit <;> simp

/-- Settles O15: each flag is cleared by its bit. -/
theorem statusWriteOneToClear : Obligations.StatusWriteOneToClear := by
  unfold Obligations.StatusWriteOneToClear
  intro s v
  rw [← and_not_eq_ite, ← and_not_eq_ite, ← and_not_eq_ite]
  rfl

/-! ### Writes of an operand word (R245) -/

theorem toNat_append_eq_add {m n : Nat} (a : BitVec m) (b : BitVec n) :
    (a ++ b).toNat = a.toNat * 2 ^ n + b.toNat := by
  rw [BitVec.toNat_append, ← Nat.shiftLeft_add_eq_or_of_lt b.isLt, Nat.shiftLeft_eq]

theorem lowHalf_toNat (p : F64) : (lowHalf p).toNat = p.toNat % 2 ^ 32 := by
  rw [lowHalf, BitVec.extractLsb'_toNat, Nat.shiftRight_zero]

theorem highHalf_toNat (p : F64) : (highHalf p).toNat = p.toNat / 2 ^ 32 := by
  have hp := p.isLt
  rw [highHalf, BitVec.extractLsb'_toNat, Nat.shiftRight_eq_div_pow, Nat.mod_eq_of_lt (by omega)]

theorem setLowHalf_toNat (p : F64) (v : Word) :
    (setLowHalf p v).toNat = p.toNat / 2 ^ 32 * 2 ^ 32 + v.toNat := by
  rw [setLowHalf, toNat_append_eq_add, highHalf_toNat]

theorem setHighHalf_toNat (p : F64) (v : Word) :
    (setHighHalf p v).toNat = v.toNat * 2 ^ 32 + p.toNat % 2 ^ 32 := by
  rw [setHighHalf, toNat_append_eq_add, lowHalf_toNat]

/-- Settles O16, by the two halves as numbers. -/
theorem operandWritesReplaceOneHalf : Obligations.OperandWritesReplaceOneHalf := by
  unfold Obligations.OperandWritesReplaceOneHalf
  intro s v
  exact ⟨⟨_, rfl, setLowHalf_toNat s.cr v⟩, ⟨_, rfl, setHighHalf_toNat s.cr v⟩, ⟨_, rfl, setLowHalf_toNat s.ci v⟩,
    ⟨_, rfl, setHighHalf_toNat s.ci v⟩⟩

/-! ### Writes of every other word (R246) -/

/-- Settles O17: every write that changes something is of another word. -/
theorem otherWritesIgnored : Obligations.OtherWritesIgnored := by
  unfold Obligations.OtherWritesIgnored
  intro s w v hw
  obtain ⟨t, h⟩ := hostWrite_next w v s
  rw [h]
  obtain ⟨rfl, -⟩ | ⟨rfl, -⟩ | ⟨rfl, -⟩ | ⟨rfl, -⟩ | ⟨rfl, -⟩ | ⟨rfl, -⟩ | rfl := hostWrite_cases h
  case inr.inr.inr.inr.inr.inr => rfl
  all_goals exact absurd hw (by decide)

end Sys2Proof.Machine
end

section
/-!
What a read of each word returns (44_host_access.md R241, R247, R248): the register as a number, and which of its bits
are draws.
-/

namespace Sys2Proof.Machine

/-! ### The registers as numbers (R241) -/

/-- The code of ECAUSE (10_state.md R25). -/
def Cause.code : Cause → Nat
  | .none => 0
  | .illegalWord => 1
  | .whileBusy => 2

/-- The code of MODE (10_state.md R45). -/
def Phase.code : Phase → Nat
  | .idle => 0
  | .tIter => 1
  | .rStart => 2
  | .rIter => 2
  | .rEnd => 2

theorem causeBits_toNat (c : Cause) : (causeBits c).toNat = c.code := by cases c <;> rfl

theorem modeBits_toNat (p : Phase) : (modeBits p).toNat = p.code := by cases p <;> rfl

theorem busy_toNat (s : State) : s.busy.toNat = if s.phase = .idle then 0 else 1 := by
  split_ifs with hp
  · rw [(busy_eq_false s).mpr hp]; rfl
  · rw [(busy_eq_true s).mpr hp]; rfl

/-- The value of a register, as a number. -/
def State.regNumber (s : State) : Reg → Nat
  | .ctrl => 0
  | .status =>
    64 * s.ecause.code + 16 * s.phase.code + 8 * s.nf.toNat + 4 * s.err.toNat + 2 * s.done.toNat
      + (if s.phase = .idle then 0 else 1)
  | .sum => s.bpk.sum.toNat
  | .packst => 256 * s.bpk.bitNum.toNat + s.bpk.byteAcc.toNat
  | .crLo => s.cr.toNat % 2 ^ 32
  | .crHi => s.cr.toNat / 2 ^ 32
  | .ciLo => s.ci.toNat % 2 ^ 32
  | .ciHi => s.ci.toNat / 2 ^ 32
  | .eres => 256 * s.count.toNat + s.esc.toNat
  | .pos => 65536 * s.y.toNat + s.x.toNat
  | .cfg => 65536 * 50 + s.size.toNat
  | .id => 0x4D420007
  | .reserved => 0

section
variable (s : State)

theorem statusWord_toNat : s.statusWord.toNat = s.regNumber .status := by
  rw [State.statusWord, BitVec.toNat_setWidth_of_le (by decide)]
  simp only [toNat_append_eq_add, BitVec.toNat_ofBool, causeBits_toNat, modeBits_toNat, busy_toNat, State.regNumber]
  omega

/-- PACKST = bit_num ++ byte_acc (R31). -/
theorem readExact_packst_toNat : (s.readExact .packst).toNat = s.regNumber .packst := by
  rw [State.readExact, BitVec.toNat_setWidth_of_le (by decide), toNat_append_eq_add, State.regNumber]
  omega

/-- ERES has seven bits 0 between COUNT and ESC (R34). -/
theorem readExact_eres_toNat : (s.readExact .eres).toNat = s.regNumber .eres := by
  rw [State.readExact, BitVec.toNat_setWidth_of_le (by decide), toNat_append_eq_add, toNat_append_eq_add,
    BitVec.toNat_ofBool, BitVec.toNat_ofNat, State.regNumber]
  omega

theorem readExact_pos_toNat : (s.readExact .pos).toNat = s.regNumber .pos := by
  rw [State.readExact, toNat_append_eq_add, State.regNumber]
  omega

/-- CFG = ITER_MAX ++ SIZE (R36). -/
theorem readExact_cfg_toNat : (s.readExact .cfg).toNat = s.regNumber .cfg := by
  rw [State.readExact, BitVec.toNat_setWidth_of_le (by decide), toNat_append_eq_add, State.regNumber]
  rfl

/-- What R241 lets a read return, as a number. -/
theorem readExact_toNat (r : Reg) : (s.readExact r).toNat = s.regNumber r := by
  cases r with
  | ctrl => rfl
  | status => exact statusWord_toNat s
  | sum => exact BitVec.toNat_setWidth_of_le (by decide)
  | packst => exact readExact_packst_toNat s
  | crLo => exact lowHalf_toNat s.cr
  | crHi => exact highHalf_toNat s.cr
  | ciLo => exact lowHalf_toNat s.ci
  | ciHi => exact highHalf_toNat s.ci
  | eres => exact readExact_eres_toNat s
  | pos => exact readExact_pos_toNat s
  | cfg => exact readExact_cfg_toNat s
  | id => rfl
  | reserved => rfl

theorem readExact_eq_ofNat (r : Reg) : s.readExact r = BitVec.ofNat 32 (s.regNumber r) := by
  rw [← readExact_toNat, BitVec.ofNat_toNat, BitVec.setWidth_eq]

end

/-! ### The drawn bits (R247) -/

/-- The drawn bits of the register at a word index, as a number. -/
def drawnNumber (p : Phase) (w : Nat) : Nat :=
  if p = .idle then 0
  else if p = .tIter then (if w = 1 then 0x8 else if w = 8 then 0x3F01 else 0)
  else
    (if w = 1 then 0x8 else if w = 2 then 0xFF else if w = 3 then 0x7FF else if w = 8 then 0x3F01
    else if w = 9 then 0xFFFFFFFF else 0)

theorem drawnBits_eq_ofNat (p : Phase) (w : Index) :
    drawnBits (modeBits p) (regAt w) = BitVec.ofNat 32 (drawnNumber p w.toNat) := by
  cases p <;> revert w <;> decide

/-! ### The read -/

/-- A read changes no state but the model's record of responses and draw index (R248). -/
theorem hostRead_frame (s : State) (w : Index) :
    { s.hostRead w with responses := s.responses, draws := s.draws } = s := rfl

/-- A step that takes a read answers that read of the state with the event taken. -/
theorem step_read (s : State) (w : Index) (rest : List Event) :
    step { s with events := .access (.read w) :: rest } =
      .next { s with
        events := rest, responses := s.responses ++ [s.readValue (regAt w)], draws := (s.hostRead w).draws } := rfl

/-- Settles O14: outside the drawn bits the value read is the register's number. -/
theorem readsReturnTheRegister : Obligations.ReadsReturnTheRegister := by
  unfold Obligations.ReadsReturnTheRegister
  intro s w
  refine ⟨s.readValue (regAt w), hostRead_responses w s, step_read s w, hostRead_frame s w, ?_⟩
  intro exact drawn hexact hdrawn
  have hnumber : exact = s.regNumber (regAt w) := by
    have hw : w.toNat < 16 := w.isLt
    rw [hexact, regAt]
    generalize w.toNat = k at hw ⊢
    interval_cases k <;> rfl
  have hbits : drawn = drawnNumber s.phase w.toNat := hdrawn
  rw [hnumber, hbits, ← readExact_eq_ofNat, ← drawnBits_eq_ofNat]
  exact readValue_exact_bits s (regAt w)

end Sys2Proof.Machine
end

section
/-!
Progress (60_exceptions.md R260, 40_fp_datapath.md R129, 00_scope.md R8): every step from a state that meets the
invariants has a next state. Only the R_START step can be refused, and on the grid it is not.
-/

namespace Sys2Proof.Machine

theorem engineStep_idle {s : State} (hp : s.phase = .idle) : s.engineStep = .next s := by
  rw [State.engineStep, hp]

/-- The engine is stopped by nothing but an R_START step off the grid (43_sequencer.md R221). -/
theorem engineStep_next {s : State}
    (onGrid : s.phase = .rStart → s.x.toNat < s.size.toNat ∧ s.y.toNat < s.size.toNat) :
    ∃ t, s.engineStep = .next t := by
  cases hp : s.phase with
  | idle => exact ⟨_, engineStep_idle hp⟩
  | tIter => exact ⟨_, engineStep_tIter hp⟩
  | rStart =>
    obtain ⟨hx, hy⟩ := onGrid hp
    exact ⟨_, startStepTakesTheCoordinates s hp hx hy⟩
  | rIter => exact ⟨_, engineStep_rIter hp⟩
  | rEnd => exact ⟨_, engineStep_rEnd hp⟩

theorem State.Inv.engineStep_next {s : State} (h : s.Inv) : ∃ t, s.engineStep = .next t :=
  Machine.engineStep_next fun hp => h.onGrid (.inl hp)

/-- A host access is never refused, busy or not (20_memory.md R75). -/
theorem hostAccess_next (a : Access) (s : State) : ∃ t, hostAccess a s = .next t := by
  cases a with
  | read w => exact ⟨_, rfl⟩
  | write w v => exact hostWrite_next w v s

/-- Settles O41, by the event that stands first. -/
theorem noStopFromTheInvariants : Obligations.NoStopFromTheInvariants := by
  unfold Obligations.NoStopFromTheInvariants
  intro s h
  cases ev : s.events with
  | nil => rw [step_nil ev]; exact h.engineStep_next
  | cons e es =>
    cases e with
    | access a => rw [step_access ev]; exact hostAccess_next a _
    | engine => rw [step_engine ev]; exact (h.withEvents es).engineStep_next
    | reset => exact ⟨State.resetEvent { s with events := es }, by rw [step, ev]⟩

/-- Settles O32: the idle engine answers its own state, at its turn and where no event waits. -/
theorem idleBlockHolds : Obligations.IdleBlockHolds := by
  unfold Obligations.IdleBlockHolds
  exact fun _ hp => ⟨fun ev => (step_nil ev).trans (engineStep_idle hp),
    fun _ ev => (step_engine ev).trans (engineStep_idle hp)⟩

end Sys2Proof.Machine
end

section
/-!
NF over a whole RUN (60_exceptions.md R262, 41_escape_test.md R160): the point in work stays small, so no ITER of a RUN
meets a value that is not finite.
-/

namespace Sys2Proof.Machine

theorem lt_of_coordI_eq_some {size y : Nat} {ci : F64} (h : coordI size y = some ci) : y < size := by
  by_contra hge
  rw [coordI, gridQuotient_none fun hy => hge hy.1] at h
  cases h

/-- The point that an R_START step begins is small. -/
theorem small_pointStart_of_coordinates {size : BitVec 16} {x y : Nat} {cr ci : F64}
    (hcr : coordR size.toNat x = some cr) (hci : coordI size.toNat y = some ci) : (Etu.pointStart cr ci).Small := by
  have hsize : size.toNat ≤ 65535 := Nat.le_of_lt_succ size.isLt
  obtain ⟨_, hcr', hr⟩ := coordR_within (lt_of_coordR_eq_some hcr) hsize
  obtain ⟨_, hci', hi⟩ := coordI_within (lt_of_coordI_eq_some hci) hsize
  obtain rfl := Option.some.inj (hcr.symm.trans hcr')
  obtain rfl := Option.some.inj (hci.symm.trans hci')
  exact .pointStart hr hi

/-- No TEST is in work, and the RUN's point in work is small. -/
structure State.SmallRun (s : State) : Prop where
  noTest : s.phase ≠ .tIter
  small : s.phase = .rIter → s.etu.Small

namespace State.SmallRun
variable {s t : State}

theorem startRun (s : State) : s.startRun.SmallRun := ⟨by simp, by simp⟩

/-- The R_ITER step: a point that goes on stays small. -/
theorem rIter (h : s.SmallRun) (hp : s.phase = .rIter) : s.rIterStep.SmallRun := by
  rw [rIterStep_eq]
  split_ifs with hf
  · exact ⟨nofun, nofun⟩
  · have he : (s.etu.iter s.draws).escape = false := (Bool.or_eq_false_iff.mp (Bool.eq_false_of_not_eq_true hf)).1
    exact ⟨by simp [hp], fun _ => by simpa using (h.small hp).iter he⟩

theorem rEnd (s : State) : s.rEndStep.SmallRun := by
  simp only [State.rEndStep]
  split <;> exact ⟨nofun, nofun⟩

theorem engineStep (h : s.SmallRun) (ht : s.engineStep = .next t) : t.SmallRun := by
  obtain ⟨-, rfl⟩ | ⟨hp, -⟩ | ⟨-, -, cr, ci, hcr, hci, rfl⟩ | ⟨hp, rfl⟩ | ⟨-, rfl⟩ := engineStep_cases ht
  · exact h
  · exact absurd hp h.noTest
  · exact ⟨nofun, fun _ => small_pointStart_of_coordinates hcr hci⟩
  · exact h.rIter hp
  · exact rEnd s

/-- Only the R_ITER step could raise NF, and the values of a small point are finite (41_escape_test.md R156). -/
theorem engineStep_nf (h : s.SmallRun) (ht : s.engineStep = .next t) : t.nf = s.nf := by
  obtain ⟨-, rfl⟩ | ⟨hp, -⟩ | ⟨-, -, _, _, -, -, rfl⟩ | ⟨hp, rfl⟩ | ⟨-, rfl⟩ := engineStep_cases ht
  · rfl
  · exact absurd hp h.noTest
  · rfl
  · have hfin := (h.small hp).nonFinite_eq_false s.draws
    rw [rIterStep_eq]
    split <;> simp [hfin]
  · exact rEndStep_nf s

end State.SmallRun

theorem engineStep_of_engineSteps_succ {n : Nat} {s t : State} (h : s.engineSteps (n + 1) = .next t) :
    ∃ u, s.engineStep = .next u ∧ u.engineSteps n = .next t := by
  simp only [State.engineSteps] at h
  split at h
  · next u hu => exact ⟨u, hu, h⟩
  · cases h
  · cases h

theorem State.SmallRun.engineSteps_nf {s t : State} (n : Nat) (h : s.SmallRun) (ht : s.engineSteps n = .next t) :
    t.nf = s.nf := by
  induction n generalizing s with
  | zero =>
    obtain rfl : s = t := Host.Outcome.next.inj ht
    rfl
  | succ n ih =>
    obtain ⟨u, hu, ht⟩ := engineStep_of_engineSteps_succ ht
    exact (ih (h.engineStep hu) ht).trans (h.engineStep_nf hu)

/-- Settles O47: every engine step of the RUN keeps its point small and NF as it was. -/
theorem runLeavesNf : Obligations.RunLeavesNf := by
  unfold Obligations.RunLeavesNf
  exact fun s _ _ _ ht => (State.SmallRun.startRun s).engineSteps_nf _ ht

end Sys2Proof.Machine
end

section
/-!
The race for DONE (60_exceptions.md R266): a W1C write does not touch what decides the engine's next phase, and the
engine step that ends IDLE raises DONE whatever it was.
-/

namespace Sys2Proof.Machine

section
variable (s : State)

theorem tIterStep_phase : s.tIterStep.phase = if (s.etu.iter s.draws).finished then .idle else s.phase := by
  rw [tIterStep_eq]
  split <;> simp

theorem rIterStep_phase : s.rIterStep.phase = if (s.etu.iter s.draws).finished then .rEnd else s.phase := by
  rw [rIterStep_eq]
  split <;> simp

theorem advance_y : s.advance.y = if s.lastColumn then s.y + 1 else s.y := by
  unfold State.advance
  split <;> rfl

theorem rEndStep_phase :
    s.rEndStep.phase = if (if s.lastColumn then s.y + 1 else s.y) = s.size then .idle else .rStart := by
  simp [State.rEndStep, apply_ite State.phase, advance_y, State.lastColumn]

end

theorem hostWrite_status (v : Word) (s : State) : hostWrite 1 v s = .next (s.writeStatus v) := rfl

section
variable {s t : State}

/-- A busy engine that comes to IDLE raises DONE (10_state.md R27). -/
theorem done_of_engineStep_idle (hp : s.phase ≠ .idle) (h : s.engineStep = .next t) (ht : t.phase = .idle) :
    t.done = true := by
  obtain ⟨hidle, -⟩ | ⟨-, rfl⟩ | ⟨-, -, _, _, -, -, rfl⟩ | ⟨-, rfl⟩ | ⟨-, rfl⟩ := engineStep_cases h
  · exact absurd hidle hp
  · rw [tIterStep_eq] at ht ⊢
    split_ifs at ht ⊢
    · rfl
    · exact absurd (by simpa using ht) hp
  · cases ht
  · rw [rIterStep_phase] at ht
    split_ifs at ht
    exact absurd ht hp
  · simp [rEndStep_done, ht]

/-- The engine goes to the same phase whether or not STATUS was written before its step. -/
theorem engineStep_writeStatus (v : Word) (h : s.engineStep = .next t) :
    ∃ t', (s.writeStatus v).engineStep = .next t' ∧ t'.phase = t.phase := by
  obtain ⟨hp, rfl⟩ | ⟨hp, rfl⟩ | ⟨hp, -, cr, ci, hcr, hci, rfl⟩ | ⟨hp, rfl⟩ | ⟨hp, rfl⟩ := engineStep_cases h
  · exact ⟨_, engineStep_idle hp, rfl⟩
  · exact ⟨_, engineStep_tIter hp, by rw [tIterStep_phase, tIterStep_phase]; rfl⟩
  · exact ⟨_, engineStep_rStart hp hcr hci, rfl⟩
  · exact ⟨_, engineStep_rIter hp, by rw [rIterStep_phase, rIterStep_phase]; rfl⟩
  · exact ⟨_, engineStep_rEnd hp, by rw [rEndStep_phase, rEndStep_phase]; rfl⟩

end

/-- Settles O38: after the write the engine ends IDLE all the same and raises DONE; a write after that clears it. -/
theorem doneRaceDependsOnOrder : Obligations.DoneRaceDependsOnOrder := by
  unfold Obligations.DoneRaceDependsOnOrder
  intro s t v hv hp h ht
  obtain ⟨t', h', hphase⟩ := engineStep_writeStatus v h
  have ht' : t'.phase = .idle := hphase.trans ht
  exact ⟨⟨_, t', hostWrite_status v s, h', ht', done_of_engineStep_idle (s := s.writeStatus v) hp h' ht'⟩,
    ⟨_, hostWrite_status v t, by simp [hv]⟩⟩

end Sys2Proof.Machine
end

section
/-!
The engine left alone comes to IDLE (70_reset_and_hazards.md R303, 43_sequencer.md R225): `State.stepsLeft` bounds the
engine steps still to come, and every step of a busy engine makes it smaller.
-/

namespace Sys2Proof.Machine

/-! ### The bound -/

/-- The points of the grid from the position (x, y) on, in the order of a RUN (43_sequencer.md R215). -/
def State.pointsLeft (s : State) : Nat := s.size.toNat * (s.size.toNat - s.y.toNat) - s.x.toNat

/-- At most so many engine steps are left: a TEST takes up to 50 iterations, and a point of a RUN 52 steps, R_START, up
to 50 times R_ITER, and R_END (43_sequencer.md R225). -/
def State.stepsLeft (s : State) : Nat :=
  match s.phase with
  | .idle => 0
  | .tIter => 50 - s.etu.it.toNat
  | .rStart => 52 * s.pointsLeft
  | .rIter => 52 * s.pointsLeft - 1 - s.etu.it.toNat
  | .rEnd => 52 * s.pointsLeft - 51

section
variable {s : State}

theorem stepsLeft_idle (hp : s.phase = .idle) : s.stepsLeft = 0 := by rw [State.stepsLeft, hp]

theorem stepsLeft_tIter (hp : s.phase = .tIter) : s.stepsLeft = 50 - s.etu.it.toNat := by rw [State.stepsLeft, hp]

theorem stepsLeft_rStart (hp : s.phase = .rStart) : s.stepsLeft = 52 * s.pointsLeft := by rw [State.stepsLeft, hp]

theorem stepsLeft_rIter (hp : s.phase = .rIter) : s.stepsLeft = 52 * s.pointsLeft - 1 - s.etu.it.toNat := by
  rw [State.stepsLeft, hp]

theorem stepsLeft_rEnd (hp : s.phase = .rEnd) : s.stepsLeft = 52 * s.pointsLeft - 51 := by rw [State.stepsLeft, hp]

theorem pointsLeft_pos (hx : s.x.toNat < s.size.toNat) (hy : s.y.toNat < s.size.toNat) : 0 < s.pointsLeft := by
  have hrow : s.size.toNat * 1 ≤ s.size.toNat * (s.size.toNat - s.y.toNat) := Nat.mul_le_mul_left _ (by omega)
  rw [State.pointsLeft]
  omega

theorem pointsLeft_le (s : State) : s.pointsLeft ≤ s.size.toNat * s.size.toNat :=
  (Nat.sub_le _ _).trans (Nat.mul_le_mul_left _ (Nat.sub_le _ _))

theorem tIterStep_etu (s : State) : s.tIterStep.etu = s.etu.iter s.draws := by
  rw [tIterStep_eq]
  split <;> simp

theorem rIterStep_etu (s : State) : s.rIterStep.etu = s.etu.iter s.draws := by
  rw [rIterStep_eq]
  split <;> simp

theorem rIterStep_pointsLeft (s : State) : s.rIterStep.pointsLeft = s.pointsLeft := by
  rw [rIterStep_eq]
  split <;> simp [State.pointsLeft]

/-- The R_END step, unless it ends the RUN, goes on to R_START with one point fewer (43_sequencer.md R223). -/
theorem rEndStep_pointsLeft (hx : s.x.toNat < s.size.toNat) (hy : s.y.toNat < s.size.toNat) :
    s.rEndStep.phase = .idle ∨ s.rEndStep.phase = .rStart ∧ s.rEndStep.pointsLeft + 1 = s.pointsLeft := by
  have hpos := pointsLeft_pos hx hy
  have hlt := s.size.isLt
  rw [rEndStep_eq (fun h0 => by simp [h0] at hx) hy]
  split_ifs with hcol hrow
  · exact .inl rfl
  · have hy1 : (s.y + 1).toNat = s.y.toNat + 1 := by simp [BitVec.toNat_add]; omega
    have hmul : s.size.toNat * (s.size.toNat - s.y.toNat) =
        s.size.toNat * (s.size.toNat - (s.y.toNat + 1)) + s.size.toNat := by
      rw [← Nat.mul_succ]
      congr 1
      omega
    refine .inr ⟨rfl, ?_⟩
    simp only [State.pointsLeft, hy1, show (0 : BitVec 16).toNat = 0 from rfl] at hpos ⊢
    omega
  · have hx1 : (s.x + 1).toNat = s.x.toNat + 1 := by simp [BitVec.toNat_add]; omega
    refine .inr ⟨rfl, ?_⟩
    simp only [State.pointsLeft, hx1] at hpos ⊢
    omega

end

namespace State.Inv
variable {s t : State}

theorem stepsLeft_le (h : s.Inv) : s.stepsLeft ≤ 52 * (s.size.toNat * s.size.toNat) := by
  have hsize : 0 < s.size.toNat := Nat.pos_of_ne_zero (size_toNat_ne_zero h.build)
  have hgrid : 0 < s.size.toNat * s.size.toNat := Nat.mul_pos hsize hsize
  have hpoints := pointsLeft_le s
  cases hp : s.phase with
  | idle => rw [stepsLeft_idle hp]; omega
  | tIter => rw [stepsLeft_tIter hp]; omega
  | rStart => rw [stepsLeft_rStart hp]; omega
  | rIter => rw [stepsLeft_rIter hp]; omega
  | rEnd => rw [stepsLeft_rEnd hp]; omega

/-! ### One engine step -/

theorem engineStep (h : s.Inv) (ht : s.engineStep = .next t) : t.Inv :=
  (h.withEvents []).stepEffect (.of_engineStep (es := s.events) (.inl rfl) ht)

theorem tIter_stepsLeft (h : s.Inv) (hp : s.phase = .tIter) : s.tIterStep.stepsLeft < s.stepsLeft := by
  have hlt := h.counter.2 (.inl hp)
  have hit := h.iter_it_toNat (.inl hp)
  have hphase := tIterStep_phase s
  rw [stepsLeft_tIter hp]
  split_ifs at hphase with hf
  · rw [stepsLeft_idle hphase]
    omega
  · rw [stepsLeft_tIter (hphase.trans hp), tIterStep_etu]
    omega

theorem rIter_stepsLeft (h : s.Inv) (hp : s.phase = .rIter) : s.rIterStep.stepsLeft < s.stepsLeft := by
  obtain ⟨hx, hy⟩ := h.onGrid (.inr (.inl hp))
  have hpos := pointsLeft_pos hx hy
  have hlt := h.counter.2 (.inr hp)
  have hit := h.iter_it_toNat (.inr hp)
  have hphase := rIterStep_phase s
  rw [stepsLeft_rIter hp]
  split_ifs at hphase with hf
  · rw [stepsLeft_rEnd hphase, rIterStep_pointsLeft]
    omega
  · rw [stepsLeft_rIter (hphase.trans hp), rIterStep_pointsLeft, rIterStep_etu]
    omega

theorem rEnd_stepsLeft (h : s.Inv) (hp : s.phase = .rEnd) : s.rEndStep.stepsLeft < s.stepsLeft := by
  obtain ⟨hx, hy⟩ := h.onGrid (.inr (.inr hp))
  have hpos := pointsLeft_pos hx hy
  rw [stepsLeft_rEnd hp]
  obtain hidle | ⟨hstart, hpoints⟩ := rEndStep_pointsLeft hx hy
  · rw [stepsLeft_idle hidle]
    omega
  · rw [stepsLeft_rStart hstart]
    omega

theorem engineStep_stepsLeft (h : s.Inv) (hp : s.phase ≠ .idle) (ht : s.engineStep = .next t) :
    t.stepsLeft < s.stepsLeft := by
  obtain ⟨hidle, -⟩ | ⟨hp, rfl⟩ | ⟨hp, -, cr, ci, -, -, rfl⟩ | ⟨hp, rfl⟩ | ⟨hp, rfl⟩ := engineStep_cases ht
  · exact absurd hidle hp
  · exact h.tIter_stepsLeft hp
  · obtain ⟨hx, hy⟩ := h.onGrid (.inl hp)
    have hpos := pointsLeft_pos hx hy
    rw [stepsLeft_rStart hp, stepsLeft_rIter rfl]
    show 52 * s.pointsLeft - 1 - _ < 52 * s.pointsLeft
    omega
  · exact h.rIter_stepsLeft hp
  · exact h.rEnd_stepsLeft hp

/-! ### The way to IDLE -/

theorem reachesIdle {s : State} (h : s.Inv) :
    ∃ n t, n ≤ s.stepsLeft ∧ s.engineSteps n = .next t ∧ t.phase = .idle := by
  by_cases hp : s.phase = .idle
  · exact ⟨0, s, Nat.zero_le _, rfl, hp⟩
  · obtain ⟨u, hu⟩ := h.engineStep_next
    have hlt := h.engineStep_stepsLeft hp hu
    obtain ⟨n, t, hn, hsteps, hidle⟩ := (h.engineStep hu).reachesIdle
    exact ⟨n + 1, t, by omega, (engineSteps_succ hu n).trans hsteps, hidle⟩
termination_by s.stepsLeft

end State.Inv

/-- Settles O42: the engine needs at most `stepsLeft` steps, which the grid bounds. -/
theorem engineReachesIdle : Obligations.EngineReachesIdle := by
  unfold Obligations.EngineReachesIdle
  intro s h
  obtain ⟨n, t, hn, hsteps, hidle⟩ := h.reachesIdle
  exact ⟨n, t, hn.trans h.stepsLeft_le, hsteps, hidle⟩

end Sys2Proof.Machine
end

section
/-! The reset event, and what the host reads after it (70_reset_and_hazards.md R291, R294). -/

namespace Sys2Proof.Machine

theorem step_reset {s : State} {es : List Event} (h : s.events = .reset :: es) :
    step s = .next (State.resetEvent { s with events := es }) := by
  simp [step, h]

theorem statusWord_resetEvent (s : State) : s.resetEvent.statusWord = 0 :=
  BitVec.eq_of_toNat_eq (statusWord_toNat s.resetEvent)

/-- Settles O21, from the equation of the step. -/
theorem resetSetsEverything : Obligations.ResetSetsEverything := by
  unfold Obligations.ResetSetsEverything
  exact fun _ _ ev => ⟨_, step_reset ev, statusWord_resetEvent _, rfl, rfl⟩

/-! ### Reads after reset (R294) -/

/-- Only CFG and ID read other than 0, as numbers. -/
theorem regNumber_resetEvent (s : State) (r : Reg) :
    s.resetEvent.regNumber r =
      if r = .cfg then 65536 * 0x32 + s.size.toNat else if r = .id then 0x4D420007 else 0 := by
  cases r with
  | crHi | ciHi => exact Nat.zero_div (2 ^ 32)
  | _ => rfl

theorem regAt_eq_cfg_iff (w : Index) : regAt w = .cfg ↔ w.toNat = 10 := by revert w; decide

theorem regAt_eq_id_iff (w : Index) : regAt w = .id ↔ w.toNat = 11 := by revert w; decide

theorem readValue_resetEvent (s : State) (w : Index) :
    s.resetEvent.readValue (regAt w) =
      if w.toNat = 10 then BitVec.ofNat 32 (65536 * 0x32 + s.size.toNat)
      else if w.toNat = 11 then 0x4D420007#32 else 0#32 := by
  simp only [readValue_idle (resetEvent_phase s), readExact_eq_ofNat, regNumber_resetEvent, regAt_eq_cfg_iff,
    regAt_eq_id_iff, apply_ite (BitVec.ofNat 32)]

/-- A reset and a read in a row: the read is that of the state the reset leaves. -/
theorem run_reset_read {s : State} {w : Index} {es : List Event} (ev : s.events = .reset :: .access (.read w) :: es) :
    Sys2Proof.core.run 2 s = .next (State.hostRead w (State.resetEvent { s with events := es })) := by
  rw [run_succ_of_step (step_reset ev), run_succ_of_access rfl rfl]
  rfl

/-- Settles O22: by the values read of the state a reset leaves; `State.reset` is such a state. -/
theorem readsAfterReset : Obligations.ReadsAfterReset := by
  unfold Obligations.ReadsAfterReset
  have hread (s : State) (w : Index) := congrArg (s.responses ++ [·]) (readValue_resetEvent s w)
  exact ⟨hread, fun s w es ev => ⟨_, run_reset_read ev, hread { s with events := es } w⟩, hread State.reset 10⟩

end Sys2Proof.Machine
end
